-- ==== Sys2Proof/Word.lean ====
section
/-! DEFINITION. The block's data: 32-bit words, bytes, the items of its command interface, and timestamps. -/

namespace Sys2Proof

/-- A `u32` (00_scope.md R10): the width of every counter, fraction and operand word (R8, `W`). -/
abbrev Word := BitVec 32

/-- One byte of a byte-array operand or result (20_memory.md R50). -/
abbrev Byte := BitVec 8

/-- One item on the command interface (30_encoding.md R70): a word `W` carried as a value, or a byte array
`B[n]` in index order. An operand's length is not in its type, so a timestamp of another length than 8 can be
delivered (R73). -/
inductive Item where
  | word  (w : Word)
  | bytes (b : List Byte)
  deriving DecidableEq, Repr

/-- What FG sends to issue one operation (30_encoding.md R70): the command word, then the operand items. -/
structure Command where
  word     : Word
  operands : List Item
  deriving DecidableEq, Repr

/-- The items of a command in the order they are sent (30_encoding.md R70). -/
def Command.items (c : Command) : List Item := .word c.word :: c.operands

/-- A Timestamp (00_scope.md R14): `sec + frac / 2^32` seconds since the NTP epoch. -/
structure Timestamp where
  sec  : Word
  frac : Word
  deriving DecidableEq, Repr

/-- A list of words as result items (00_scope.md R13, `return`). -/
def wordItems (ws : List Word) : List Item := ws.map .word

end Sys2Proof
end

