-- ==== Sys2Proof/Config.lean ====
section
/-! DEFINITION. The fixed parameters of 00_scope.md R8, the moves an execution is made of, and the free values. -/

namespace Sys2Proof

/-- One atomic step some agent may take (10_state.md R20; 60_exceptions.md R215). -/
inductive Move where
  /-- FG issues the next command of its program (30_encoding.md R70). -/
  | issue
  /-- FG samples SECONDS in an open GET_TIME window (40_clock.md R104). -/
  | sampleS
  /-- FG samples TICKS in an open GET_TIME window (40_clock.md R104). -/
  | sampleT
  /-- FG completes the GET_TIME (40_clock.md R105). -/
  | complete
  /-- TB: EV.TICK (40_clock.md R101). -/
  | tick
  /-- ISR: EV.ROLLOVER (40_clock.md R102). -/
  | rollover
  /-- The platform: EV.RESET (70_reset_and_hazards.md R230). -/
  | reset
  deriving DecidableEq, Repr, Inhabited

namespace Config

/-- `TICKS_PER_SECOND` (00_scope.md R8). -/
def ticksPerSecond : Word := 10000
/-- `US_PER_TICK` (00_scope.md R8). -/
def usPerTick : Word := 100
/-- `US_PER_SECOND` (00_scope.md R8). -/
def usPerSecond : Word := 1000000
/-- `NTP_UNIX_DELTA` (00_scope.md R8). -/
def ntpUnixDelta : Word := 2208988800
/-- `TS_BYTES` (00_scope.md R8). -/
def tsBytes : Nat := 8
/-- `PKT_BYTES` (00_scope.md R8). -/
def pktBytes : Word := 48

/-- FREE VALUE: `draw(all u32)`, what SECONDS holds after the reset that makes draw number `k`
(70_reset_and_hazards.md R230; log entry 3). -/
opaque resetSeconds : Nat → Word

/-- FREE VALUE: `draw([0, 9999])`, what TICKS holds after the reset that makes draw number `k`
(70_reset_and_hazards.md R230; log entry 3). -/
opaque resetTicks : Nat → Fin 10000

/-- FREE VALUE: which move comes next where nothing has chosen it yet ("any agent with an enabled step may take
the next step", 10_state.md R20; log entry 1). -/
opaque freeMove : Nat → Move

end Config
end Sys2Proof
end

