-- ==== Sys2Proof/Syntax.lean ====
section
/-! DEFINITION. The commands of 30_encoding.md R74, one constructor per row of the opcode table, with the operands
of its signature in order. -/

namespace Sys2Proof

inductive Instr where
  /-- MC.INIT (40_clock.md R100). -/
  | mcInit
  /-- MC.GET_TIME (40_clock.md R103). -/
  | mcGetTime
  /-- MC.SET_TIME (40_clock.md R106). -/
  | mcSetTime (sec usec : Word)
  /-- MC.NOW_SECONDS (40_clock.md R107). -/
  | mcNowSeconds
  /-- TS.PARSE (41_wire.md R130). -/
  | tsParse (ts : List Byte)
  /-- TS.SERIALIZE (41_wire.md R131). -/
  | tsSerialize (sec frac : Word)
  /-- PKT.PARSE (41_wire.md R133): the length word `n` and the `n` bytes. -/
  | pktParse (n : Word) (p : List Byte)
  /-- CV.M2F (43_fixedpoint.md R170). -/
  | cvM2f (u : Word)
  /-- CV.F2M (43_fixedpoint.md R172). -/
  | cvF2m (x : Word)
  /-- CV.TO_NTP (43_fixedpoint.md R175). -/
  | cvToNtp (wsec wusec utc : Word)
  /-- OC.DIFF (42_offset.md R150). -/
  | ocDiff (aSec aFrac bSec bFrac : Word)
  /-- OC.OFFSET (42_offset.md R152). -/
  | ocOffset (t1s t1f t2s t2f t3s t3f t4s t4f : Word)
  /-- OC.APPLY_CALC (42_offset.md R155). -/
  | ocApplyCalc (t4s t4f osec ousec utc : Word)
  /-- OC.APPLY (42_offset.md R156). -/
  | ocApply (t4s t4f osec ousec utc : Word)
  deriving DecidableEq, Repr

end Sys2Proof
end

