-- ==== Sys2Proof/WellFormed.lean ====
section
/-! DEFINITION. Which terms of Instr are commands of 30_encoding.md R70. -/

namespace Sys2Proof

/-- A term is a command when its byte array has the length its signature's `n` says: `W n, B[n] p` of PKT.PARSE
(30_encoding.md R71, R74). Nothing else is left to check: words are words by type (R72), and a TS.PARSE operand of
another length than 8 is a command that faults with code 4 (R73). -/
def Instr.wellFormed : Instr → Bool
  | .mcInit => true
  | .mcGetTime => true
  | .mcSetTime _ _ => true
  | .mcNowSeconds => true
  | .tsParse _ => true
  | .tsSerialize _ _ => true
  | .pktParse n p => p.length == n.toNat
  | .cvM2f _ => true
  | .cvF2m _ => true
  | .cvToNtp _ _ _ => true
  | .ocDiff _ _ _ _ => true
  | .ocOffset _ _ _ _ _ _ _ _ => true
  | .ocApplyCalc _ _ _ _ _ => true
  | .ocApply _ _ _ _ _ => true

end Sys2Proof
end

