-- ==== Sys2Proof/Decode.lean ====
section
/-! DEFINITION. The decoder and the encoder of commands (30_encoding.md R70 to R76). -/

namespace Sys2Proof

/-- Why items are no command. Only `illegalCmd` is a case the spec names (30_encoding.md R76); the others are
deliveries a host never makes (60_exceptions.md R215; log entry 8). -/
inductive DecodeError where
  /-- R76: the OPC is not in the table, or RSV is not 0. -/
  | illegalCmd
  /-- The first item is missing or is no word. -/
  | noCommandWord
  /-- An operand item the signature lists is missing or of the other kind. -/
  | operandItems
  /-- The byte array of PKT.PARSE does not have `n` bytes. -/
  | packetLength
  /-- An operand item is left over behind the signature's last. -/
  | trailingItems
  deriving DecidableEq, Repr

/-- The OPC field, bits 7:0 (30_encoding.md R70). -/
def opcField (w : Word) : Byte := w.extractLsb' 0 8

/-- The RSV field, bits 31:8 (30_encoding.md R70). -/
def rsvField (w : Word) : BitVec 24 := w.extractLsb' 8 24

/-- Reads the operand items of the operation `opc` (30_encoding.md R71, R74) and returns the command and the items
behind it. -/
def decodeOperands (opc : Nat) (items : List Item) : Except DecodeError (Instr × List Item) :=
  match opc with
  | 0x01 => .ok (.mcInit, items)
  | 0x02 => .ok (.mcGetTime, items)
  | 0x03 => match items with
    | .word sec :: .word usec :: rest => .ok (.mcSetTime sec usec, rest)
    | _ => .error .operandItems
  | 0x04 => .ok (.mcNowSeconds, items)
  | 0x10 => match items with
    | .bytes ts :: rest => .ok (.tsParse ts, rest)
    | _ => .error .operandItems
  | 0x11 => match items with
    | .word sec :: .word frac :: rest => .ok (.tsSerialize sec frac, rest)
    | _ => .error .operandItems
  | 0x12 => match items with
    | .word n :: .bytes p :: rest =>
      if p.length = n.toNat then .ok (.pktParse n p, rest) else .error .packetLength
    | _ => .error .operandItems
  | 0x20 => match items with
    | .word u :: rest => .ok (.cvM2f u, rest)
    | _ => .error .operandItems
  | 0x21 => match items with
    | .word x :: rest => .ok (.cvF2m x, rest)
    | _ => .error .operandItems
  | 0x22 => match items with
    | .word wsec :: .word wusec :: .word utc :: rest => .ok (.cvToNtp wsec wusec utc, rest)
    | _ => .error .operandItems
  | 0x30 => match items with
    | .word aSec :: .word aFrac :: .word bSec :: .word bFrac :: rest =>
      .ok (.ocDiff aSec aFrac bSec bFrac, rest)
    | _ => .error .operandItems
  | 0x31 => match items with
    | .word t1s :: .word t1f :: .word t2s :: .word t2f :: .word t3s :: .word t3f :: .word t4s :: .word t4f ::
        rest => .ok (.ocOffset t1s t1f t2s t2f t3s t3f t4s t4f, rest)
    | _ => .error .operandItems
  | 0x32 => match items with
    | .word t4s :: .word t4f :: .word osec :: .word ousec :: .word utc :: rest =>
      .ok (.ocApplyCalc t4s t4f osec ousec utc, rest)
    | _ => .error .operandItems
  | 0x33 => match items with
    | .word t4s :: .word t4f :: .word osec :: .word ousec :: .word utc :: rest =>
      .ok (.ocApply t4s t4f osec ousec utc, rest)
    | _ => .error .operandItems
  | _ => .error .illegalCmd

/-- The decoder, total on every stream of items: the command word first, then what its OPC's signature lists; an
illegal command word is refused before any operand item is read (30_encoding.md R71, R76). -/
def decode : List Item → Except DecodeError (Instr × List Item)
  | [] => .error .noCommandWord
  | .bytes _ :: _ => .error .noCommandWord
  | .word w :: rest =>
    if rsvField w = 0 then decodeOperands (opcField w).toNat rest else .error .illegalCmd

/-- Decodes one command as FG sends it: all of its items belong to it (30_encoding.md R70). -/
def decodeCommand (c : Command) : Except DecodeError Instr :=
  match decode c.items with
  | .ok (i, []) => .ok i
  | .ok (_, _ :: _) => .error .trailingItems
  | .error e => .error e

/-- The command word of each operation (30_encoding.md R74, column OPC; RSV = 0). -/
def commandWord : Instr → Word
  | .mcInit => 0x00000001
  | .mcGetTime => 0x00000002
  | .mcSetTime _ _ => 0x00000003
  | .mcNowSeconds => 0x00000004
  | .tsParse _ => 0x00000010
  | .tsSerialize _ _ => 0x00000011
  | .pktParse _ _ => 0x00000012
  | .cvM2f _ => 0x00000020
  | .cvF2m _ => 0x00000021
  | .cvToNtp _ _ _ => 0x00000022
  | .ocDiff _ _ _ _ => 0x00000030
  | .ocOffset _ _ _ _ _ _ _ _ => 0x00000031
  | .ocApplyCalc _ _ _ _ _ => 0x00000032
  | .ocApply _ _ _ _ _ => 0x00000033

/-- The operand items of each operation (30_encoding.md R74, column operands). -/
def operandItems : Instr → List Item
  | .mcInit => []
  | .mcGetTime => []
  | .mcSetTime sec usec => wordItems [sec, usec]
  | .mcNowSeconds => []
  | .tsParse ts => [.bytes ts]
  | .tsSerialize sec frac => wordItems [sec, frac]
  | .pktParse n p => [.word n, .bytes p]
  | .cvM2f u => wordItems [u]
  | .cvF2m x => wordItems [x]
  | .cvToNtp wsec wusec utc => wordItems [wsec, wusec, utc]
  | .ocDiff aSec aFrac bSec bFrac => wordItems [aSec, aFrac, bSec, bFrac]
  | .ocOffset t1s t1f t2s t2f t3s t3f t4s t4f => wordItems [t1s, t1f, t2s, t2f, t3s, t3f, t4s, t4f]
  | .ocApplyCalc t4s t4f osec ousec utc => wordItems [t4s, t4f, osec, ousec, utc]
  | .ocApply t4s t4f osec ousec utc => wordItems [t4s, t4f, osec, ousec, utc]

/-- The command that issues an operation (30_encoding.md R70). -/
def encodeCommand (i : Instr) : Command := ⟨commandWord i, operandItems i⟩

/-- The encoder: the items of the command, in order (30_encoding.md R70). -/
def encode (i : Instr) : List Item := (encodeCommand i).items

/-- The next `k` words of a number of bits, the lowest bits first. -/
def wordsOfBits : Nat → Nat → List Word
  | 0, _ => []
  | k + 1, b => BitVec.ofNat 32 b :: wordsOfBits k (b >>> 32)

/-- The next `k` bytes of a number of bits, the lowest bits first. -/
def bytesOfBits : Nat → Nat → List Byte
  | 0, _ => []
  | k + 1, b => BitVec.ofNat 8 b :: bytesOfBits k (b >>> 8)

/-- The operand items of the operation `opc` laid out from the bits `b` behind its command word (log entry 10). -/
def itemsOfBits (opc b : Nat) : List Item :=
  match opc with
  | 0x03 => wordItems (wordsOfBits 2 b)
  | 0x10 => [.bytes (bytesOfBits 8 b)]
  | 0x11 => wordItems (wordsOfBits 2 b)
  | 0x12 => [.word (BitVec.ofNat 32 b), .bytes (bytesOfBits (b % 2 ^ 32) (b >>> 32))]
  | 0x20 => wordItems (wordsOfBits 1 b)
  | 0x21 => wordItems (wordsOfBits 1 b)
  | 0x22 => wordItems (wordsOfBits 3 b)
  | 0x30 => wordItems (wordsOfBits 4 b)
  | 0x31 => wordItems (wordsOfBits 8 b)
  | 0x32 => wordItems (wordsOfBits 5 b)
  | 0x33 => wordItems (wordsOfBits 5 b)
  | _ => []

/-- The command whose bits are `w` below `nbits` and 0 above, numbered from the command word's bit 0. -/
def tableCommand (nbits w : Nat) : Command :=
  let b := w % 2 ^ nbits
  let word := BitVec.ofNat 32 b
  ⟨word, itemsOfBits (opcField word).toNat (b >>> 32)⟩

/-- What the decoder reads from the bits of a row of the opcode table, operands zero above `nbits`. -/
def decodeTableWord (nbits w : Nat) : Option Instr :=
  (decodeCommand (tableCommand nbits w)).toOption

end Sys2Proof
end

