-- ==== Sys2Proof/Machine/State.lean ====
section
/-! DEFINITION. The state of the block (10_state.md section 2), the ways a step stops, and the state after reset. -/

namespace Sys2Proof.Machine

/-- Why the machine stops with a fault. The spec's own faults are no stops: they write FAULT and the block goes on
to the quiescent state (60_exceptions.md R205). -/
inductive Fault where
  /-- Raised by `State.perform` (so by every meaning, under `exec`) where FAULT is not 0: no agent has an enabled
  step, so the command cannot be issued (60_exceptions.md R205). `step` asks first and never raises it. Safe: the
  model stops where the spec has no step. -/
  | quiescent
  deriving DecidableEq, Repr

/-- Why the machine has no meaning for what it was given. -/
inductive Refusal where
  /-- Raised by an arm of `exec` whose instruction has no meaning yet (no arm of this model). Safe. -/
  | notModelled (mnemonic : String)
  /-- Raised by `State.perform` (so by every meaning, under `exec`) where a GET_TIME window is open: FG issues no
  other operation then (10_state.md R27). `step` asks first and never raises it. Safe. -/
  | windowOpen
  /-- Raised by `issueCommand` for a command whose items do not fit its signature, and by `execPktParse` for a term
  that is not well formed: a delivery no host makes (60_exceptions.md R215; log entry 8). Safe. -/
  | malformedCommand
  deriving DecidableEq, Repr

/-- GT, the GET_TIME sampling window (10_state.md R27): each slot is empty or one sampled u32. -/
inductive Window where
  | closed
  | opened (s t : Option Word)
  deriving DecidableEq, Repr

/-- The state items of 10_state.md section 2 and, behind them, four fields of the model for what lies outside the
block: FG's commands, its results, the interleaving and the count of free values (log entries 1, 4, 5, 7). -/
structure State where
  /-- SECONDS (R21). -/
  seconds : Word
  /-- TICKS (R22). -/
  ticks   : Word
  /-- TEN, the timer enable (R23). -/
  ten     : Bool
  /-- IEN, the rollover-interrupt enable (R24). -/
  ien     : Bool
  /-- RPEND, the rollover-pending flag (R25). -/
  rpend   : Bool
  /-- CFG, the timer has been configured (R26). -/
  cfg     : Bool
  /-- GT (R27). -/
  gt      : Window
  /-- FAULT, 0 or the code of the first fault raised (R28). -/
  fault   : BitVec 8
  /-- OVR, the ghost bit of a lost rollover (R29). -/
  ovr     : Bool
  /-- FG's commands not yet issued, next first (60_exceptions.md R216). -/
  program : List Command
  /-- The result items returned so far, oldest first (60_exceptions.md R217). -/
  results : List Item
  /-- The moves already chosen, next first; behind them every choice is free (20_memory.md R58). -/
  sched   : List Move
  /-- How many free values have been drawn. -/
  draws   : Nat
  deriving DecidableEq, Repr

/-- The state after EV.RESET (70_reset_and_hazards.md R230), with nothing given from outside. SECONDS and TICKS are
draws (log entry 3). -/
def State.reset : State where
  seconds := Config.resetSeconds 0
  ticks   := BitVec.ofNat 32 (Config.resetTicks 0).val
  ten     := false
  ien     := false
  rpend   := false
  cfg     := false
  gt      := .closed
  fault   := 0
  ovr     := false
  program := []
  results := []
  sched   := []
  draws   := 1

/-- What a step answers. -/
abbrev Result := Host.Outcome State Fault Refusal

end Sys2Proof.Machine
end

