-- ==== Sys2Proof/Machine/Flags.lean ====
section
/-! DEFINITION. Conditions computed from the state and from operands: which steps are enabled, the interrupt
request, and the borrow and carry inside the offset arithmetic. The block has no condition codes (10_state.md R33). -/

namespace Sys2Proof.Machine

/-- FG may issue a command: FAULT = 0 and GT = Closed (40_clock.md, template; 60_exceptions.md R215). -/
abbrev State.fgReady (s : State) : Prop := s.fault = 0 ∧ s.gt = .closed

/-- EV.TICK is enabled: TEN = 1 and CFG = 1 (40_clock.md R101), and FAULT = 0 (60_exceptions.md R205). -/
abbrev State.tickEnabled (s : State) : Prop := s.fault = 0 ∧ s.ten = true ∧ s.cfg = true

/-- The interrupt request line, IRQ = IEN ∧ RPEND (60_exceptions.md R203). -/
def State.irq (s : State) : Bool := s.ien && s.rpend

/-- EV.ROLLOVER is enabled: IRQ = 1 (40_clock.md R102) and FAULT = 0 (60_exceptions.md R205). -/
abbrev State.rolloverEnabled (s : State) : Prop := s.fault = 0 ∧ s.irq = true

/-- The next tick is a timer-period rollover (40_clock.md R101). -/
abbrev State.atRollover (s : State) : Prop := s.ticks = Config.ticksPerSecond - 1

/-- The fraction subtraction `b - a` borrows (42_offset.md R150): not `b_frac >= a_frac`, unsigned. -/
abbrev borrows (a b : Timestamp) : Prop := b.frac < a.frac

/-- A microsecond count carries into the seconds (42_offset.md R152, R155): `usec >= US_PER_SECOND`, unsigned. -/
abbrev carries (usec : Word) : Prop := Config.usPerSecond ≤ usec

end Sys2Proof.Machine
end

