-- ==== Sys2Proof/Machine/Operands.lean ====
section
/-! DEFINITION. The operand forms and the operators of the rules: zero extension, big-endian words, timestamps and
packets in byte arrays, signed halving (00_scope.md R10, R11, R13; 20_memory.md R52, R53; 41_wire.md R132). -/

namespace Sys2Proof.Machine

/-- `zext_32(b)` (00_scope.md R10). -/
def zext32 (b : Byte) : Word := b.setWidth 32

/-- Byte `i` of a byte array; every rule reads inside the array's length, so the default is never read. -/
def byteAt (p : List Byte) (i : Nat) : Byte := p.getD i 0

/-- `BE32(p, i)` (00_scope.md R13). -/
def be32 (p : List Byte) (i : Nat) : Word :=
  (zext32 (byteAt p i) <<< 24) ||| (zext32 (byteAt p (i + 1)) <<< 16) |||
    (zext32 (byteAt p (i + 2)) <<< 8) ||| zext32 (byteAt p (i + 3))

/-- `BYTES_BE32(v)` (00_scope.md R13). -/
def bytesBE32 (v : Word) : List Byte :=
  [v.extractLsb' 24 8, v.extractLsb' 16 8, v.extractLsb' 8 8, v.extractLsb' 0 8]

/-- `sdiv2(v)` (00_scope.md R11): `s32(v)` divided by 2, truncated toward zero, as a u32. -/
def sdiv2 (v : Word) : Word := BitVec.ofInt 32 (v.toInt.tdiv 2)

/-- The timestamp at byte `i` (41_wire.md R130): big-endian seconds, then big-endian fraction. -/
def timestampAt (p : List Byte) (i : Nat) : Timestamp := ⟨be32 p i, be32 p (i + 4)⟩

/-- The 8 bytes of a timestamp (41_wire.md R131). -/
def timestampBytes (t : Timestamp) : List Byte := bytesBE32 t.sec ++ bytesBE32 t.frac

/-- The fields of the wire packet (41_wire.md R132), as 32-bit result words and timestamps. -/
structure Packet where
  lvm            : Word
  stratum        : Word
  poll           : Word
  precision      : Word
  rootDelay      : Word
  rootDispersion : Word
  referenceId    : Word
  refTs          : Timestamp
  origTs         : Timestamp
  recvTs         : Timestamp
  xmitTs         : Timestamp
  deriving DecidableEq, Repr

/-- The fields of a 48-byte packet at the offsets of 41_wire.md R132, one-byte fields zero-extended (R133). -/
def packetOf (p : List Byte) : Packet where
  lvm            := zext32 (byteAt p 0)
  stratum        := zext32 (byteAt p 1)
  poll           := zext32 (byteAt p 2)
  precision      := zext32 (byteAt p 3)
  rootDelay      := be32 p 4
  rootDispersion := be32 p 8
  referenceId    := be32 p 12
  refTs          := timestampAt p 16
  origTs         := timestampAt p 24
  recvTs         := timestampAt p 32
  xmitTs         := timestampAt p 40

/-- The 15 result words of a valid packet, in order (41_wire.md R133). -/
def packetWords (k : Packet) : List Word :=
  [k.lvm, k.stratum, k.poll, k.precision, k.rootDelay, k.rootDispersion, k.referenceId,
    k.refTs.sec, k.refTs.frac, k.origTs.sec, k.origTs.frac, k.recvTs.sec, k.recvTs.frac, k.xmitTs.sec, k.xmitTs.frac]

end Sys2Proof.Machine
end

