-- ==== Sys2Proof/Machine/Ops.lean ====
section
/-! DEFINITION. The operations the commands share: raising a fault, returning results, the check that the clock is
configured, setting the clock, and performing a command where FG may issue one. -/

namespace Sys2Proof.Machine

/-- The faults of 60_exceptions.md R200. -/
inductive FaultCode where
  | illegalCmd
  | uninit
  | doubleInit
  | operandLen
  deriving DecidableEq, Repr

/-- The code each fault records (60_exceptions.md R200). -/
def faultCode : FaultCode → BitVec 8
  | .illegalCmd => 1
  | .uninit => 2
  | .doubleInit => 3
  | .operandLen => 4

/-- `raise Fault(c)`, the block's one exception entry (60_exceptions.md R205): it writes FAULT when FAULT = 0, and
nothing else (R202). There is no return from it but EV.RESET. -/
def State.raise (s : State) (c : FaultCode) : State :=
  if s.fault = 0 then { s with fault := faultCode c } else s

/-- `return (r1, ..., rn)` (00_scope.md R13): the items go to the issuer behind those returned before. -/
def State.respond (s : State) (rs : List Item) : State := { s with results := s.results ++ rs }

/-- Returning result words. -/
def State.respondWords (s : State) (ws : List Word) : State := s.respond (wordItems ws)

/-- `if CFG = 0: raise Fault(2)`, before anything else the operation does (60_exceptions.md R200, R202). -/
def State.requireInit (s : State) (f : State → State) : State := if s.cfg then f s else s.raise .uninit

/-- The critical section of MC.SET_TIME, one atomic step (40_clock.md R106). -/
def State.setTime (s : State) (sec usec : Word) : State :=
  { s with
    seconds := sec
    ticks   := (usec / Config.usPerTick) % Config.ticksPerSecond
    rpend   := false
    ien     := true
    ten     := true }

/-- Performs an issued command. FG issues only while FAULT = 0 and GT = Closed (40_clock.md, template; 10_state.md
R27; 60_exceptions.md R205); elsewhere there is no such step, and the model stops by name. -/
def State.perform (s : State) (f : State → State) : Result :=
  if s.fault = 0 then
    match s.gt with
    | .closed => .next (f s)
    | .opened _ _ => .refused .windowOpen
  else .fault .quiescent

end Sys2Proof.Machine
end

