-- ==== Sys2Proof/Machine/Clock.lean ====
section
/-! DEFINITION. The Monotonic Clock's commands (40_clock.md). -/

namespace Sys2Proof.Machine

/-- MC.INIT (40_clock.md R100). -/
def execMcInit (s : State) : Result :=
  s.perform fun s =>
    if s.cfg then s.raise .doubleInit
    else { s with cfg := true, rpend := false, ien := true, ten := true }

/-- MC.GET_TIME, the issue step (40_clock.md R103); the samples and the completion are FG's further steps. -/
def execMcGetTime (s : State) : Result :=
  s.perform fun s => s.requireInit fun s => { s with gt := .opened none none }

/-- MC.SET_TIME (40_clock.md R106). -/
def execMcSetTime (sec usec : Word) (s : State) : Result :=
  s.perform fun s => s.requireInit fun s => s.setTime sec usec

/-- MC.NOW_SECONDS (40_clock.md R107). -/
def execMcNowSeconds (s : State) : Result :=
  s.perform fun s => s.requireInit fun s => s.respondWords [s.seconds]

end Sys2Proof.Machine
end

