-- ==== Sys2Proof/Machine/Fixed.lean ====
section
/-! DEFINITION. Fixed-point and epoch conversions (43_fixedpoint.md). Every product and sum is mod 2^32. -/

namespace Sys2Proof.Machine

/-- `micro_to_ntp_fraction` (43_fixedpoint.md R170). -/
def m2f (u : Word) : Word := 4294 * u + ((1981 * u) >>> 11) + ((2911 * u) >>> 28)

/-- `ntp_fraction_to_micro` (43_fixedpoint.md R172). -/
def f2m (x : Word) : Word := (x >>> 12) - 759 * (((x >>> 10) + 32768) >>> 16)

/-- The NTP timestamp of a wall-clock reading (43_fixedpoint.md R175). -/
def toNtp (wsec wusec utc : Word) : Timestamp := ⟨wsec - utc + Config.ntpUnixDelta, m2f wusec⟩

/-- CV.M2F (43_fixedpoint.md R170). -/
def execCvM2f (u : Word) (s : State) : Result := s.perform fun s => s.respondWords [m2f u]

/-- CV.F2M (43_fixedpoint.md R172). -/
def execCvF2m (x : Word) (s : State) : Result := s.perform fun s => s.respondWords [f2m x]

/-- CV.TO_NTP (43_fixedpoint.md R175). -/
def execCvToNtp (wsec wusec utc : Word) (s : State) : Result :=
  s.perform fun s =>
    let t := toNtp wsec wusec utc
    s.respondWords [t.sec, t.frac]

end Sys2Proof.Machine
end

