-- ==== Sys2Proof/Machine/Offset.lean ====
section
/-! DEFINITION. Offset arithmetic (42_offset.md). -/

namespace Sys2Proof.Machine

/-- `diff(a, b)`, `b - a` in the borrow representation (42_offset.md R150). -/
def diff (a b : Timestamp) : Timestamp :=
  let sec := b.sec - a.sec
  if borrows a b then ⟨sec - 1, ~~~(a.frac - b.frac)⟩ else ⟨sec, b.frac - a.frac⟩

/-- Carries one second out of a microsecond count (42_offset.md R152, R155). -/
def carryOnce (sec usec : Word) : Word × Word :=
  if carries usec then (sec + 1, usec - Config.usPerSecond) else (sec, usec)

/-- The round-trip offset of T1 to T4 (42_offset.md R152). -/
def offsetOf (t1 t2 t3 t4 : Timestamp) : Word × Word :=
  let d1 := diff t1 t2
  let d2 := diff t4 t3
  let c := carryOnce (d1.sec + d2.sec) (f2m d1.frac + f2m d2.frac)
  (sdiv2 c.1, c.2 / 2)

/-- The corrected wall-clock time (42_offset.md R155). -/
def applyCalc (t4 : Timestamp) (osec ousec utc : Word) : Word × Word :=
  carryOnce (t4.sec - Config.ntpUnixDelta + osec + utc) (f2m t4.frac + ousec)

/-- OC.DIFF (42_offset.md R150). -/
def execOcDiff (aSec aFrac bSec bFrac : Word) (s : State) : Result :=
  s.perform fun s =>
    let d := diff ⟨aSec, aFrac⟩ ⟨bSec, bFrac⟩
    s.respondWords [d.sec, d.frac]

/-- OC.OFFSET (42_offset.md R152). -/
def execOcOffset (t1s t1f t2s t2f t3s t3f t4s t4f : Word) (s : State) : Result :=
  s.perform fun s =>
    let o := offsetOf ⟨t1s, t1f⟩ ⟨t2s, t2f⟩ ⟨t3s, t3f⟩ ⟨t4s, t4f⟩
    s.respondWords [o.1, o.2]

/-- OC.APPLY_CALC (42_offset.md R155). -/
def execOcApplyCalc (t4s t4f osec ousec utc : Word) (s : State) : Result :=
  s.perform fun s =>
    let n := applyCalc ⟨t4s, t4f⟩ osec ousec utc
    s.respondWords [n.1, n.2]

/-- OC.APPLY (42_offset.md R156): the check, the computation and MC.SET_TIME in one step. -/
def execOcApply (t4s t4f osec ousec utc : Word) (s : State) : Result :=
  s.perform fun s => s.requireInit fun s =>
    let n := applyCalc ⟨t4s, t4f⟩ osec ousec utc
    (s.setTime n.1 n.2).respondWords [n.1, n.2]

end Sys2Proof.Machine
end

