-- ==== Sys2Proof/Machine/Wire.lean ====
section
/-! DEFINITION. Timestamp and wire-packet parsing (41_wire.md). These commands need no MC.INIT. -/

namespace Sys2Proof.Machine

/-- TS.PARSE (41_wire.md R130). -/
def execTsParse (ts : List Byte) (s : State) : Result :=
  s.perform fun s =>
    if ts.length = Config.tsBytes then s.respondWords [be32 ts 0, be32 ts 4] else s.raise .operandLen

/-- TS.SERIALIZE (41_wire.md R131). -/
def execTsSerialize (sec frac : Word) (s : State) : Result :=
  s.perform fun s => s.respond [.bytes (timestampBytes ⟨sec, frac⟩)]

/-- PKT.PARSE (41_wire.md R133): a datagram of another size than 48 is an ordinary result. A term whose array does
not have `n` bytes is no command (30_encoding.md R71). -/
def execPktParse (n : Word) (p : List Byte) (s : State) : Result :=
  if p.length = n.toNat then
    s.perform fun s =>
      if n = Config.pktBytes then s.respondWords (1 :: packetWords (packetOf p)) else s.respondWords [0]
  else .refused .malformedCommand

end Sys2Proof.Machine
end

