-- ==== Sys2Proof/Machine/Dispatch.lean ====
section
/-! DEFINITION. One issued command (30_encoding.md R74): each constructor's meaning. -/

namespace Sys2Proof.Machine

def exec (i : Instr) (s : State) : Host.Outcome State Fault Refusal :=
  match i with
  | .mcInit => Sys2Proof.Machine.execMcInit s
  | .mcGetTime => Sys2Proof.Machine.execMcGetTime s
  | .mcSetTime sec usec => Sys2Proof.Machine.execMcSetTime sec usec s
  | .mcNowSeconds => Sys2Proof.Machine.execMcNowSeconds s
  | .tsParse ts => Sys2Proof.Machine.execTsParse ts s
  | .tsSerialize sec frac => Sys2Proof.Machine.execTsSerialize sec frac s
  | .pktParse n p => Sys2Proof.Machine.execPktParse n p s
  | .cvM2f u => Sys2Proof.Machine.execCvM2f u s
  | .cvF2m x => Sys2Proof.Machine.execCvF2m x s
  | .cvToNtp wsec wusec utc => Sys2Proof.Machine.execCvToNtp wsec wusec utc s
  | .ocDiff aSec aFrac bSec bFrac => Sys2Proof.Machine.execOcDiff aSec aFrac bSec bFrac s
  | .ocOffset t1s t1f t2s t2f t3s t3f t4s t4f => Sys2Proof.Machine.execOcOffset t1s t1f t2s t2f t3s t3f t4s t4f s
  | .ocApplyCalc t4s t4f osec ousec utc => Sys2Proof.Machine.execOcApplyCalc t4s t4f osec ousec utc s
  | .ocApply t4s t4f osec ousec utc => Sys2Proof.Machine.execOcApply t4s t4f osec ousec utc s

end Sys2Proof.Machine
end

