-- ==== Sys2Proof/Machine/Events.lean ====
section
/-! DEFINITION. The steps that are no commands: EV.TICK, EV.ROLLOVER, EV.RESET, and FG's samples and completion of an
open GET_TIME window. A step that is not enabled leaves the state as it is (log entry 2). -/

namespace Sys2Proof.Machine

/-- EV.TICK's effect (40_clock.md R101). -/
def State.tick (s : State) : State :=
  if s.atRollover then { s with ticks := 0, ovr := s.ovr || s.rpend, rpend := true }
  else { s with ticks := s.ticks + 1 }

/-- EV.TICK, where it is enabled (40_clock.md R101). -/
def State.evTick (s : State) : State := if s.tickEnabled then s.tick else s

/-- EV.ROLLOVER, where it is enabled (40_clock.md R102): the whole entry, service and return of the rollover
interrupt (60_exceptions.md R206, R207). -/
def State.evRollover (s : State) : State :=
  if s.rolloverEnabled then { s with seconds := s.seconds + 1, rpend := false } else s

/-- SAMPLE_S, where GT is open, its first slot is empty and FAULT = 0 (40_clock.md R104). -/
def State.sampleSeconds (s : State) : State :=
  if s.fault = 0 then
    match s.gt with
    | .closed => s
    | .opened (some _) _ => s
    | .opened none t => { s with gt := .opened (some s.seconds) t }
  else s

/-- SAMPLE_T, where GT is open, its second slot is empty and FAULT = 0 (40_clock.md R104). -/
def State.sampleTicks (s : State) : State :=
  if s.fault = 0 then
    match s.gt with
    | .closed => s
    | .opened _ (some _) => s
    | .opened x none => { s with gt := .opened x (some s.ticks) }
  else s

/-- The completion of MC.GET_TIME, where both slots are filled and FAULT = 0 (40_clock.md R105). -/
def State.completeGetTime (s : State) : State :=
  if s.fault = 0 then
    match s.gt with
    | .closed => s
    | .opened none _ => s
    | .opened (some _) none => s
    | .opened (some sec) (some t) => { s with gt := .closed }.respondWords [sec, t * Config.usPerTick]
  else s

/-- EV.RESET (70_reset_and_hazards.md R230), at any point: it writes every state item of the block, and draws SECONDS
and TICKS anew. What lies outside the block stays (log entry 5). -/
def State.evReset (s : State) : State :=
  { s with
    seconds := Config.resetSeconds s.draws
    ticks   := BitVec.ofNat 32 (Config.resetTicks s.draws).val
    ten     := false
    ien     := false
    rpend   := false
    cfg     := false
    gt      := .closed
    fault   := 0
    ovr     := false
    draws   := s.draws + 1 }

end Sys2Proof.Machine
end

