-- ==== Sys2Proof/Machine/Agents.lean ====
section
/-! DEFINITION. Which agent moves next, and what its move does (10_state.md R20; 20_memory.md R58). -/

namespace Sys2Proof.Machine

/-- The next move of the interleaving, and the state with that choice made: the first of `sched`, and where nothing
has chosen, a free value (log entry 1). -/
def State.nextMove (s : State) : Move × State :=
  match s.sched with
  | m :: ms => (m, { s with sched := ms })
  | [] => (Config.freeMove s.draws, { s with draws := s.draws + 1 })

/-- FG issues the next command of its program, where it may and has one (60_exceptions.md R215). The command word is
decoded first: an illegal one raises Fault(1) and reads no operand item (30_encoding.md R76; 60_exceptions.md R202). -/
def issueCommand (s : State) : Result :=
  if s.fgReady then
    match s.program with
    | [] => .next s
    | c :: cs =>
      match decodeCommand c with
      | .ok i => exec i { s with program := cs }
      | .error .illegalCmd => .next ({ s with program := cs }.raise .illegalCmd)
      | .error _ => .refused .malformedCommand
  else .next s

/-- One atomic step of the agent whose move it is. -/
def takeMove (m : Move) (s : State) : Result :=
  match m with
  | .issue => issueCommand s
  | .sampleS => .next s.sampleSeconds
  | .sampleT => .next s.sampleTicks
  | .complete => .next s.completeGetTime
  | .tick => .next s.evTick
  | .rollover => .next s.evRollover
  | .reset => .next s.evReset

/-- FG holds the command `c` and is the agent to move next. -/
def State.offer (s : State) (c : Command) : State :=
  { s with program := c :: s.program, sched := .issue :: s.sched }

end Sys2Proof.Machine
end

