-- ==== Sys2Proof/Machine/Step.lean ====
section
/-! DEFINITION. One step of an execution, and how an instruction is placed where the next step issues it. -/

namespace Sys2Proof.Machine

/-- One atomic step (10_state.md R20): the next move is chosen, then taken. -/
def step (s : State) : Host.Outcome State Fault Refusal := takeMove s.nextMove.1 s.nextMove.2

/-- `s` with the command of these bits offered by FG, and FG to move next (log entry 6). -/
def State.withFetchWord (s : State) (nbits w : Nat) : State := s.offer (tableCommand nbits w)

end Sys2Proof.Machine
end

