-- ==== Sys2Proof/Machine/Assembler.lean ====
section
/-! DEFINITION. FG's programs as the spec writes them: assembler lines whose operands may name earlier results
(30_encoding.md R77), the two pseudo-operations (R78, R79), and the reading of a line's text (log entry 16). -/

namespace Sys2Proof.Machine

/-- An operand as a line writes it (30_encoding.md R77). -/
inductive AsmOperand where
  /-- A decimal number, with a sign. -/
  | dec (k : Int)
  /-- A `0x` hexadecimal number. -/
  | hex (n : Nat)
  /-- A name bound by an earlier `->`. -/
  | name (x : String)
  /-- A byte array `[b0, b1, ...]`. -/
  | bytes (b : List Byte)
  deriving DecidableEq, Repr

/-- A line `MNEMONIC op1, op2, ... -> r1, r2, ...` (30_encoding.md R77), its operation given by the command word. -/
structure AsmLine where
  word    : Word
  ops     : List AsmOperand
  results : List String
  deriving DecidableEq, Repr

/-- What the names stand for, the latest binding first. -/
abbrev AsmEnv := List (String × Item)

/-- The operand item a written operand stands for: a negative decimal `-k` is `u32(-k)` (30_encoding.md R77). A number
that does not fit a word, or a name that nothing has bound, stands for none. DESIGN CHOICE: a name bound to a byte-array
result stands for that byte array, though R77 gives names for word operands only (log entry 16). -/
def asmItem (env : AsmEnv) : AsmOperand → Option Item
  | .dec k => if -(2 ^ 32) < k ∧ k < 2 ^ 32 then some (.word (BitVec.ofInt 32 k)) else none
  | .hex n => if n < 2 ^ 32 then some (.word (BitVec.ofNat 32 n)) else none
  | .name x => env.lookup x
  | .bytes b => some (.bytes b)

/-- The operand items of a list of written operands. -/
def asmItems (env : AsmEnv) : List AsmOperand → Option (List Item)
  | [] => some []
  | o :: os =>
    match asmItem env o, asmItems env os with
    | some i, some is => some (i :: is)
    | _, _ => none

/-- The command a line issues under the names bound before it. -/
def assemble (env : AsmEnv) (l : AsmLine) : Option Command := (asmItems env l.ops).map (Command.mk l.word)

/-- The names after a line whose command returned `rs`: "results are bound to names after `->`". DESIGN CHOICE: a name
beyond the last result binds nothing, and a result beyond the last name goes unnamed (log entry 16). -/
def bindResults (env : AsmEnv) (l : AsmLine) (rs : List Item) : AsmEnv := (l.results.zip rs).reverse ++ env

/-- `CAPTURE_NTP utc -> sec, frac` (30_encoding.md R78). -/
def captureNtp (utc : AsmOperand) (sec frac : String) : List AsmLine :=
  [⟨0x00000002, [], ["ws", "wus"]⟩,
   ⟨0x00000022, [.name "ws", .name "wus", utc], [sec, frac]⟩]

/-- `OC.SYNC t1s, ..., t4f, utc -> nsec, nusec` (30_encoding.md R79). -/
def ocSync (t1s t1f t2s t2f t3s t3f t4s t4f utc : AsmOperand) (nsec nusec : String) : List AsmLine :=
  [⟨0x00000031, [t1s, t1f, t2s, t2f, t3s, t3f, t4s, t4f], ["osec", "ousec"]⟩,
   ⟨0x00000033, [t4s, t4f, .name "osec", .name "ousec", utc], [nsec, nusec]⟩]

/-- Lines with the last one's results bound to `names`. -/
def nameLastResults (names : List String) : List AsmLine → List AsmLine
  | [] => []
  | [l] => [{ l with results := names }]
  | l :: ls => l :: nameLastResults names ls

/-- The pieces of a line's text. -/
inductive Token where
  | atom (x : List Char)
  | comma
  | arrow
  | openBracket
  | closeBracket
  deriving DecidableEq, Repr

/-- The piece read so far, if it has a character (kept in reverse). -/
def atomOf : List Char → List Token
  | [] => []
  | c :: cs => [.atom (c :: cs).reverse]

/-- Splits a line's text: `;` begins a comment, and spaces, `,`, `->`, `[` and `]` end a piece (30_encoding.md R77). -/
def tokens : List Char → List Char → List Token
  | acc, [] => atomOf acc
  | acc, ';' :: _ => atomOf acc
  | acc, ' ' :: cs => atomOf acc ++ tokens [] cs
  | acc, ',' :: cs => atomOf acc ++ .comma :: tokens [] cs
  | acc, '[' :: cs => atomOf acc ++ .openBracket :: tokens [] cs
  | acc, ']' :: cs => atomOf acc ++ .closeBracket :: tokens [] cs
  | acc, '-' :: '>' :: cs => atomOf acc ++ .arrow :: tokens [] cs
  | acc, c :: cs => tokens (c :: acc) cs

/-- The value of a digit, decimal or hexadecimal in either case. -/
def digitValue (c : Char) : Option Nat :=
  if '0' ≤ c ∧ c ≤ '9' then some (c.toNat - 48)
  else if 'A' ≤ c ∧ c ≤ 'F' then some (c.toNat - 55)
  else if 'a' ≤ c ∧ c ≤ 'f' then some (c.toNat - 87)
  else none

/-- The number a run of digits of a base writes, most significant first, behind the value `n`. DESIGN CHOICE: no `_` may
separate the digits (log entry 16). -/
def digitsValue (base : Nat) : Nat → List Char → Option Nat
  | n, [] => some n
  | n, c :: cs =>
    match digitValue c with
    | some d => if d < base then digitsValue base (n * base + d) cs else none
    | none => none

/-- A word operand's text: a `0x` hexadecimal number, a decimal number with or without `-`, or a name
(30_encoding.md R77). -/
def operandOfText : List Char → Option AsmOperand
  | '0' :: 'x' :: c :: cs => (digitsValue 16 0 (c :: cs)).map .hex
  | '-' :: c :: cs => (digitsValue 10 0 (c :: cs)).map fun n => .dec (-n)
  | c :: cs =>
    if '0' ≤ c ∧ c ≤ '9' then (digitsValue 10 0 (c :: cs)).map fun n => .dec n
    else some (.name (String.ofList (c :: cs)))
  | [] => none

/-- A byte's text inside a byte array: a number below 256. -/
def byteOfText (x : List Char) : Option Byte :=
  match operandOfText x with
  | some (.dec k) => if 0 ≤ k ∧ k < 256 then some (BitVec.ofInt 8 k) else none
  | some (.hex n) => if n < 256 then some (BitVec.ofNat 8 n) else none
  | _ => none

/-- The bytes of `[b0, b1, ...]` behind its opening bracket, and the pieces behind its closing one. -/
def bytesOfTokens : List Token → Option (List Byte × List Token)
  | .atom x :: .closeBracket :: ts => (byteOfText x).map fun b => ([b], ts)
  | .atom x :: .comma :: ts =>
    match byteOfText x, bytesOfTokens ts with
    | some b, some (bs, rest) => some (b :: bs, rest)
    | _, _ => none
  | _ => none

/-- One operand and the pieces behind it. -/
def operandOfTokens : List Token → Option (AsmOperand × List Token)
  | .atom x :: ts => (operandOfText x).map fun o => (o, ts)
  | .openBracket :: .closeBracket :: ts => some (.bytes [], ts)
  | .openBracket :: ts => (bytesOfTokens ts).map fun r => (.bytes r.1, r.2)
  | _ => none

/-- The operands `op1, op2, ...` and the pieces behind them, at most `fuel` of them. -/
def operandsOfTokens : Nat → List Token → Option (List AsmOperand × List Token)
  | 0, _ => none
  | fuel + 1, ts =>
    match operandOfTokens ts with
    | some (o, .comma :: rest) => (operandsOfTokens fuel rest).map fun r => (o :: r.1, r.2)
    | some (o, rest) => some ([o], rest)
    | none => none

/-- The names `r1, r2, ...` behind `->`. -/
def namesOfTokens : List Token → Option (List String)
  | [.atom x] => some [String.ofList x]
  | .atom x :: .comma :: ts => (namesOfTokens ts).map (String.ofList x :: ·)
  | _ => none

/-- The command word of a mnemonic (30_encoding.md R74). -/
def mnemonicWord (m : String) : Option Word :=
  [("MC.INIT", 0x01), ("MC.GET_TIME", 0x02), ("MC.SET_TIME", 0x03), ("MC.NOW_SECONDS", 0x04), ("TS.PARSE", 0x10),
    ("TS.SERIALIZE", 0x11), ("PKT.PARSE", 0x12), ("CV.M2F", 0x20), ("CV.F2M", 0x21), ("CV.TO_NTP", 0x22),
    ("OC.DIFF", 0x30), ("OC.OFFSET", 0x31), ("OC.APPLY_CALC", 0x32), ("OC.APPLY", 0x33)].lookup m

/-- The lines a mnemonic with operands and result names stands for: one, or a pseudo-operation's expansion, whose last
line binds the names given. DESIGN CHOICE: as on every line these may be fewer or more than the form's, or none, and a
pseudo-operation with another number of operands than its form has no expansion (log entry 16). -/
def linesOf (m : String) (ops : List AsmOperand) (results : List String) : Option (List AsmLine) :=
  if m = "CAPTURE_NTP" then
    match ops with
    | [utc] => some (nameLastResults results (captureNtp utc "sec" "frac"))
    | _ => none
  else if m = "OC.SYNC" then
    match ops with
    | [t1s, t1f, t2s, t2f, t3s, t3f, t4s, t4f, utc] =>
      some (nameLastResults results (ocSync t1s t1f t2s t2f t3s t3f t4s t4f utc "nsec" "nusec"))
    | _ => none
  else (mnemonicWord m).map fun w => [⟨w, ops, results⟩]

/-- The operands and result names behind a mnemonic, each part present or not. -/
def partsOfTokens : List Token → Option (List AsmOperand × List String)
  | [] => some ([], [])
  | .arrow :: ts => (namesOfTokens ts).map fun rs => ([], rs)
  | ts =>
    match operandsOfTokens ts.length ts with
    | some (ops, []) => some (ops, [])
    | some (ops, .arrow :: rest) => (namesOfTokens rest).map fun rs => (ops, rs)
    | _ => none

/-- The lines a line's text stands for: none for a blank line or a comment (30_encoding.md R77). -/
def linesOfText (line : String) : Option (List AsmLine) :=
  match tokens [] line.toList with
  | [] => some []
  | .atom m :: ts =>
    match partsOfTokens ts with
    | some (ops, results) => linesOf (String.ofList m) ops results
    | none => none
  | _ => none

end Sys2Proof.Machine
end

