-- ==== Sys2Proof/Machine/Launch.lean ====
section
/-! DEFINITION. The run of a launch: where it ends and what is observed there (60_exceptions.md R216, R217). The
commands P of the launch are FG's program in the start state. -/

namespace Sys2Proof.Machine

/-- The step from `s` to `t` completes a command of FG, its results returned: the issue of a command that is one atomic
step, or the completion of an MC.GET_TIME (10_state.md R32; 40_clock.md R105). A command that faults does not complete,
nor does an MC.GET_TIME whose window EV.RESET closes (log entry 22). -/
def completesCommand (s t : State) : Bool :=
  match s.nextMove.1 with
  | .issue => decide (t.fault = 0 ∧ t.gt = .closed ∧ t.program.length < s.program.length)
  | .complete => decide (s.gt ≠ .closed ∧ t.gt = .closed)
  | .sampleS => false
  | .sampleT => false
  | .tick => false
  | .rollover => false
  | .reset => false

/-- How many commands FG has yet to complete after the step from `s` to `t`, where it had `left` before it. -/
def leftAfter (left : Nat) (s t : State) : Nat := if completesCommand s t then left - 1 else left

/-- The first state, at most `k` steps after `s`, at which FG has completed the `left` commands it had yet to complete,
or a fault stands (60_exceptions.md R217). -/
def runEnd : Nat → Nat → State → Option State
  | 0, left, s => if s.fault ≠ 0 ∨ left = 0 then some s else none
  | k + 1, left, s =>
    if s.fault ≠ 0 ∨ left = 0 then some s
    else
      match step s with
      | .next t => runEnd k (leftAfter left s t) t
      | .fault _ => none
      | .refused _ => none

/-- The run of the launch that starts in `s` ends in `t`, at most `k` steps later (60_exceptions.md R217). -/
abbrev State.EndsWithin (s : State) (k : Nat) (t : State) : Prop := runEnd k s.program.length s = some t

/-- `t` is the final state of the launch that starts in `s`: its run ends there, and not with a fault (R217). -/
abbrev State.FinalState (s t : State) : Prop := (∃ k, s.EndsWithin k t) ∧ t.fault = 0

/-- The observation of a run from `s` that ends in `t`: the result items returned in it, in order, and the state at the
end (60_exceptions.md R217). -/
def observation (s t : State) : List Item × State := (t.results.drop s.results.length, t)

end Sys2Proof.Machine
end

