-- ==== Sys2Proof/Safety.lean ====
section
/-! DEFINITION. The predicates claims are stated in: launch premises (60_exceptions.md R216), fairness (R210), and the invariant of every reachable state (10_state.md R22, R26, R27, R28, R30). -/

namespace Sys2Proof.Machine

/-- `Clean` (60_exceptions.md R216): FAULT = 0 and GT = Closed; FG may issue a command. -/
abbrev State.Clean (s : State) : Prop := s.fault = 0 ∧ s.gt = .closed

/-- `AfterReset` (60_exceptions.md R216): the state of 70_reset_and_hazards.md R230, SECONDS and TICKS free. -/
abbrev State.AfterReset (s : State) : Prop :=
  s.ticks.toNat ≤ 9999 ∧ s.ten = false ∧ s.ien = false ∧ s.rpend = false ∧ s.cfg = false ∧ s.gt = .closed ∧
    s.fault = 0 ∧ s.ovr = false

/-- `Booted` (60_exceptions.md R216). -/
abbrev State.Booted (s : State) : Prop := s.cfg = true ∧ s.ten = true ∧ s.ien = true ∧ s.fault = 0 ∧ s.gt = .closed

/-- `Quiet` (60_exceptions.md R216): no rollover in flight. -/
abbrev State.Quiet (s : State) : Prop := s.rpend = false

/-- `NoLoss` (60_exceptions.md R216): no rollover has been lost. -/
abbrev State.NoLoss (s : State) : Prop := s.ovr = false

/-- The samples a window may hold: the ticks sample is a legal TICKS (10_state.md R22, R27). -/
def windowLegal : Window → Bool
  | .closed => true
  | .opened _ none => true
  | .opened _ (some t) => decide (t.toNat ≤ 9999)

/-- What holds in every reachable state: TICKS in range (R22), TEN = IEN (R30) and both set exactly when the clock is
configured (R23, R24, R26), no rollover pending, lost or sampled before that, a legal FAULT (R28), a legal window. -/
abbrev State.Inv (s : State) : Prop :=
  s.ticks.toNat ≤ 9999 ∧ s.ten = s.cfg ∧ s.ien = s.cfg ∧ s.fault.toNat ≤ 4 ∧ windowLegal s.gt = true ∧
    (s.cfg = false → s.rpend = false ∧ s.ovr = false ∧ s.gt = .closed)

/-- The block's own state items (10_state.md section 2) of two states agree. -/
abbrev State.SameBlock (s t : State) : Prop :=
  t.seconds = s.seconds ∧ t.ticks = s.ticks ∧ t.ten = s.ten ∧ t.ien = s.ien ∧ t.rpend = s.rpend ∧ t.cfg = s.cfg ∧
    t.gt = s.gt ∧ t.fault = s.fault ∧ t.ovr = s.ovr

/-- An infinite execution: each state is the step of the one before. -/
def Execution (σ : Nat → State) : Prop := ∀ n, step (σ n) = .next (σ (n + 1))

/-- TB is weakly fair in an execution (60_exceptions.md R210): from every point on, EV.TICK is taken or not enabled at
some later point. -/
def TbFair (σ : Nat → State) : Prop :=
  ∀ n, ∃ m, n ≤ m ∧ (¬ (σ m).tickEnabled ∨ (σ m).nextMove.1 = .tick)

/-- ISR is weakly fair in an execution (60_exceptions.md R210). -/
def IsrFair (σ : Nat → State) : Prop :=
  ∀ n, ∃ m, n ≤ m ∧ (¬ (σ m).rolloverEnabled ∨ (σ m).nextMove.1 = .rollover)

/-- The commands that only compute: every OC operation but OC.APPLY (20_memory.md R57). -/
def isPure : Instr → Bool
  | .mcInit => false
  | .mcGetTime => false
  | .mcSetTime _ _ => false
  | .mcNowSeconds => false
  | .tsParse _ => true
  | .tsSerialize _ _ => true
  | .pktParse _ _ => true
  | .cvM2f _ => true
  | .cvF2m _ => true
  | .cvToNtp _ _ _ => true
  | .ocDiff _ _ _ _ => true
  | .ocOffset _ _ _ _ _ _ _ _ => true
  | .ocApplyCalc _ _ _ _ _ => true
  | .ocApply _ _ _ _ _ => false

/-- The commands that overwrite the clock (10_state.md R21). -/
def setsClock : Instr → Bool
  | .mcInit => false
  | .mcGetTime => false
  | .mcSetTime _ _ => true
  | .mcNowSeconds => false
  | .tsParse _ => false
  | .tsSerialize _ _ => false
  | .pktParse _ _ => false
  | .cvM2f _ => false
  | .cvF2m _ => false
  | .cvToNtp _ _ _ => false
  | .ocDiff _ _ _ _ => false
  | .ocOffset _ _ _ _ _ _ _ _ => false
  | .ocApplyCalc _ _ _ _ _ => false
  | .ocApply _ _ _ _ _ => true

end Sys2Proof.Machine
end

