-- ==== Sys2Proof/Certificates/Slice0/Obligations.lean ====
section
/-! DEFINITION. The statements for the provers. A step of one agent is stated as the step of a state whose schedule
names that agent next, so no hypothesis is needed to say who moves. -/

section
open Sys2Proof Sys2Proof.Machine

/-! ### Reset -/

/-- State.reset has the values 70_reset_and_hazards.md R230 gives; SECONDS is free and TICKS in range (log entry 3),
and no command or result stands outside the block (log entries 5, 7). -/
def Obligations.ResetStateMeetsAfterReset : Prop :=
  State.reset.AfterReset ∧ State.reset.program = [] ∧ State.reset.results = []

/-- The invariant of every reachable state holds at reset. -/
def Obligations.ResetStateMeetsInvariant : Prop := State.reset.Inv

/-- EV.RESET (R230) at any point, also in the fault state, writes every state item: SECONDS and TICKS with the next free
values, drawn anew and TICKS in [0, 9999] (log entries 3, 4), the rest with the given values. That FG's commands and
results, outside the block, stay is the model's choice (log entry 5). -/
def Obligations.ResetEventWritesEveryItem : Prop :=
  ∀ (s : State) (ms : List Move), ∃ tk : Word, tk.toNat = (Config.resetTicks s.draws).val ∧ tk.toNat ≤ 9999 ∧
    step { s with sched := .reset :: ms } =
      .next { s with
        seconds := Config.resetSeconds s.draws, ticks := tk, ten := false, ien := false, rpend := false, cfg := false,
        gt := .closed, fault := 0, ovr := false, sched := ms, draws := s.draws + 1 }

/-- After reset TB and ISR have no enabled step (R231): their moves change nothing. -/
def Obligations.AfterResetTimerAndServiceAreOff : Prop :=
  ∀ (s : State) (ms : List Move), s.AfterReset →
    step { s with sched := .tick :: ms } = .next { s with sched := ms } ∧
    step { s with sched := .rollover :: ms } = .next { s with sched := ms }

/-! ### The clock's commands and events -/

/-- MC.INIT (R100): configures and starts the clock, SECONDS and TICKS kept; a second one raises Fault(3). -/
def Obligations.InitConfiguresAndStarts : Prop :=
  ∀ s : State, s.Clean →
    (s.cfg = false → exec .mcInit s = .next { s with cfg := true, rpend := false, ien := true, ten := true }) ∧
    (s.cfg = true → exec .mcInit s = .next { s with fault := 3 })

/-- EV.TICK (R101), enabled when TEN = 1 and CFG = 1 (and FAULT = 0): at tick 9999 it rolls over, sets RPEND and,
where one was pending, OVR; else it advances TICKS by one. It writes nothing else, SECONDS least of all. -/
def Obligations.TickAdvancesOrRollsOver : Prop :=
  ∀ (s : State) (ms : List Move), s.fault = 0 → s.ten = true → s.cfg = true →
    (s.ticks.toNat = 9999 → step { s with sched := .tick :: ms } =
      .next { s with ticks := 0, ovr := s.ovr || s.rpend, rpend := true, sched := ms }) ∧
    (s.ticks.toNat ≠ 9999 → step { s with sched := .tick :: ms } =
      .next { s with ticks := s.ticks + 1, sched := ms })

/-- EV.ROLLOVER (R102), enabled when IEN = 1 and RPEND = 1 (and FAULT = 0): it adds one to SECONDS mod 2^32, clears
RPEND, and writes nothing else. -/
def Obligations.RolloverServiceAddsOneSecond : Prop :=
  ∀ (s : State) (ms : List Move), s.fault = 0 → s.ien = true → s.rpend = true →
    ∃ t, step { s with sched := .rollover :: ms } = .next t ∧
      t.seconds.toNat = (s.seconds.toNat + 1) % 2 ^ 32 ∧
      t = { s with seconds := t.seconds, rpend := false, sched := ms }

/-- A move that is not enabled changes nothing: the model's choice (log entry 2) for EV.TICK without TEN, CFG or with a
fault (R101, R205), EV.ROLLOVER without IRQ or with a fault (R102), a sample of a filled slot or a closed window (R104),
a completion before both slots are filled (R105), and an issue with a fault, in an open window (R27) or with no command
left. -/
def Obligations.MovesNotEnabledChangeNothing : Prop :=
  ∀ (s : State) (ms : List Move),
    (s.fault ≠ 0 ∨ s.ten = false ∨ s.cfg = false →
      step { s with sched := .tick :: ms } = .next { s with sched := ms }) ∧
    (s.fault ≠ 0 ∨ s.ien = false ∨ s.rpend = false →
      step { s with sched := .rollover :: ms } = .next { s with sched := ms }) ∧
    (s.fault ≠ 0 ∨ (∀ b, s.gt ≠ .opened none b) →
      step { s with sched := .sampleS :: ms } = .next { s with sched := ms }) ∧
    (s.fault ≠ 0 ∨ (∀ a, s.gt ≠ .opened a none) →
      step { s with sched := .sampleT :: ms } = .next { s with sched := ms }) ∧
    (s.fault ≠ 0 ∨ (∀ a b, s.gt ≠ .opened (some a) (some b)) →
      step { s with sched := .complete :: ms } = .next { s with sched := ms }) ∧
    (s.fault ≠ 0 ∨ s.gt ≠ .closed ∨ s.program = [] →
      step { s with sched := .issue :: ms } = .next { s with sched := ms })

/-- MC.GET_TIME, issue (R103): opens an empty window, or raises Fault(2) when CFG = 0. -/
def Obligations.GetTimeOpensWindow : Prop :=
  ∀ s : State, s.Clean →
    (s.cfg = true → exec .mcGetTime s = .next { s with gt := .opened none none }) ∧
    (s.cfg = false → exec .mcGetTime s = .next { s with fault := 2 })

/-- The two samples (R104): while its slot is empty each fills it from the current counter, in either order, and
changes nothing else. -/
def Obligations.SamplesFillEmptySlots : Prop :=
  ∀ (s : State) (ms : List Move) (a b : Option Word), s.fault = 0 →
    step { s with gt := .opened none b, sched := .sampleS :: ms } =
      .next { s with gt := .opened (some s.seconds) b, sched := ms } ∧
    step { s with gt := .opened a none, sched := .sampleT :: ms } =
      .next { s with gt := .opened a (some s.ticks), sched := ms }

/-- The completion (R105): with both slots filled it closes the window and returns the seconds and the ticks times 100;
GT and the results are all it writes. For a legal tick sample the microseconds are a multiple of 100 in [0, 999900], a
range the spec derives from R22. -/
def Obligations.CompletionReturnsSampledTime : Prop :=
  ∀ (s : State) (ms : List Move) (a b : Word), s.fault = 0 →
    ∃ usec : Word, usec = b * 100 ∧
      step { s with gt := .opened (some a) (some b), sched := .complete :: ms } =
        .next { s with gt := .closed, sched := ms, results := s.results ++ [.word a, .word usec] } ∧
      (b.toNat ≤ 9999 → usec.toNat = b.toNat * 100 ∧ usec.toNat ≤ 999900)

/-- MC.SET_TIME (R106): the whole critical section in one step, TICKS = (usec / 100) mod 10000 with no carry into
SECONDS, OVR not cleared; Fault(2) when CFG = 0. -/
def Obligations.SetTimeOverwritesClock : Prop :=
  ∀ (s : State) (sec usec : Word), s.Clean →
    (s.cfg = true → ∃ tk : Word, tk.toNat = usec.toNat / 100 % 10000 ∧
      exec (.mcSetTime sec usec) s =
        .next { s with seconds := sec, ticks := tk, rpend := false, ien := true, ten := true }) ∧
    (s.cfg = false → exec (.mcSetTime sec usec) s = .next { s with fault := 2 })

/-- MC.NOW_SECONDS (R107): returns SECONDS and writes no state item; Fault(2) when CFG = 0. It returns what the seconds
sample of a MC.GET_TIME issued at the same point takes, which the spec derives from R104 (its decision D11). -/
def Obligations.NowSecondsReturnsSeconds : Prop :=
  ∀ (s : State) (ms : List Move), s.Clean →
    (s.cfg = true → exec .mcNowSeconds s = .next { s with results := s.results ++ [.word s.seconds] }) ∧
    (s.cfg = false → exec .mcNowSeconds s = .next { s with fault := 2 }) ∧
    (s.cfg = true → ∃ t, exec .mcGetTime s = .next t ∧
      step { t with sched := .sampleS :: ms } = .next { t with gt := .opened (some s.seconds) none, sched := ms })

/-- UNINIT (R200): before MC.INIT the four operations raise Fault(2) and write nothing else, whatever their operands.
-/
def Obligations.UninitialisedClockCommandsFault : Prop :=
  ∀ (s : State) (i : Instr), s.Clean → s.cfg = false →
    (i = .mcGetTime ∨ i = .mcNowSeconds ∨ setsClock i = true) → exec i s = .next { s with fault := 2 }

/-- SET_TIME then GET_TIME with no EV.TICK in between (R109, derived by the spec from R105 and R106), the samples in
either order: the seconds set, and the microseconds with the part below one tick dropped and nothing carried; for U ≤
999999 within [U - 99, U]. -/
def Obligations.GetTimeReturnsTimeJustSet : Prop :=
  ∀ (s : State) (sec usec : Word) (cs : List Command) (ms : List Move), s.Clean → s.cfg = true →
    ∃ t : State, ∃ tk us : Word, us.toNat = usec.toNat / 100 % 10000 * 100 ∧
      (usec.toNat ≤ 999999 → usec.toNat ≤ us.toNat + 99 ∧ us.toNat ≤ usec.toNat) ∧
      t = { s with
        seconds := sec, ticks := tk, rpend := false, ien := true, ten := true,
        results := s.results ++ [.word sec, .word us], program := cs, sched := ms } ∧
      Host.Core.run Sys2Proof.core 5 { s with
        program := ⟨3, [.word sec, .word usec]⟩ :: ⟨2, []⟩ :: cs
        sched := .issue :: .issue :: .sampleS :: .sampleT :: .complete :: ms } = .next t ∧
      Host.Core.run Sys2Proof.core 5 { s with
        program := ⟨3, [.word sec, .word usec]⟩ :: ⟨2, []⟩ :: cs
        sched := .issue :: .issue :: .sampleT :: .sampleS :: .complete :: ms } = .next t

/-- The straddle (R108, which the spec derives from R101, R102 and R104). First, at the last tick: with the rollover and
its service inside the window, the schedule alone decides between the time before the rollover, one second behind, one
second ahead, and the time after the service; and the lag of a rollover not yet serviced (R241). Then for any TICKS and
any window of one rollover and one service after it: `w1` runs up to the rollover, `w2` from it to the service, `w3` from
there on. The seconds are S where they are sampled before the service, else S + 1; the ticks are at least k where they
are sampled before the rollover, else the few ticks since it. -/
def Obligations.StraddlingReadsMissByOneSecond : Prop :=
  (∀ (s : State) (cs : List Command) (ms : List Move), s.Booted → s.Quiet → s.ticks = 9999 →
      let start (sched : List Move) : State := { s with program := ⟨2, []⟩ :: cs, sched := sched ++ ms }
      let served (sec usec : Word) : State := { s with
        seconds := s.seconds + 1, ticks := 0, program := cs, sched := ms,
        results := s.results ++ [.word sec, .word usec] }
      Host.Core.run Sys2Proof.core 6 (start [.issue, .sampleS, .sampleT, .tick, .rollover, .complete]) =
        .next (served s.seconds 999900) ∧
      Host.Core.run Sys2Proof.core 6 (start [.issue, .sampleS, .tick, .rollover, .sampleT, .complete]) =
        .next (served s.seconds 0) ∧
      Host.Core.run Sys2Proof.core 6 (start [.issue, .sampleT, .tick, .rollover, .sampleS, .complete]) =
        .next (served (s.seconds + 1) 999900) ∧
      Host.Core.run Sys2Proof.core 6 (start [.issue, .tick, .rollover, .sampleS, .sampleT, .complete]) =
        .next (served (s.seconds + 1) 0) ∧
      Host.Core.run Sys2Proof.core 6 (start [.issue, .tick, .sampleS, .sampleT, .complete, .rollover]) =
        .next (served s.seconds 0)) ∧
  (∀ (s : State) (cs : List Command) (w1 w2 w3 ms : List Move), s.Booted → s.Quiet →
    s.ticks.toNat + w1.count .tick = 9999 → w2.count .tick + w3.count .tick ≤ 9999 → .rollover ∉ w2 →
    let window := w1 ++ .tick :: (w2 ++ .rollover :: w3)
    (∀ m ∈ window, m ≠ .complete ∧ m ≠ .reset) → .sampleS ∈ window → .sampleT ∈ window →
    ∃ sec usec tk : Word,
      Host.Core.run Sys2Proof.core (window.length + 2)
          { s with program := ⟨2, []⟩ :: cs, sched := .issue :: (window ++ .complete :: ms) } =
        .next { s with
          seconds := s.seconds + 1, ticks := tk, program := cs, sched := ms,
          results := s.results ++ [.word sec, .word usec] } ∧
      tk.toNat = w2.count .tick + w3.count .tick ∧
      sec = (if .sampleS ∈ w1 ∨ .sampleS ∈ w2 then s.seconds else s.seconds + 1) ∧
      usec.toNat = 100 *
        (if .sampleT ∈ w1 then s.ticks.toNat + (w1.takeWhile (· ≠ .sampleT)).count .tick
        else ((w2 ++ .rollover :: w3).takeWhile (· ≠ .sampleT)).count .tick))

/-- One second per rollover (R37, which the spec derives): under any schedule of ticks and services, TICKS counts the
ticks mod 10000, and where no rollover was lost (OVR = 0 at the end) SECONDS and the pending rollover together gained
exactly one per rollover. -/
def Obligations.SecondsCountRolloversWithoutLoss : Prop :=
  ∀ (s : State) (ms : List Move), s.Booted → s.ticks.toNat ≤ 9999 → (∀ m ∈ ms, m = .tick ∨ m = .rollover) →
    ∃ t : State, Host.Core.run Sys2Proof.core ms.length { s with sched := ms } = .next t ∧
      t.ticks.toNat = (s.ticks.toNat + ms.count .tick) % 10000 ∧
      (t.ovr = false →
        t.seconds + (if t.rpend = true then 1 else 0) =
          s.seconds + (if s.rpend = true then 1 else 0) +
            BitVec.ofNat 32 ((s.ticks.toNat + ms.count .tick) / 10000))

/-- One second per rollover, as a step (R37, which the spec derives from R101, R102 and R29), for every move but the
writers of R21 and R25 that discard a pending rollover: EV.RESET and an issued MC.INIT, MC.SET_TIME or OC.APPLY. With
OVR = 0 after the step, SECONDS and the pending rollover together gain one if it was a rollover, else nothing. A rollover
takes TICKS to 0, and the one that sets OVR adds to neither. -/
def Obligations.EveryUnlostRolloverAddsOneSecond : Prop :=
  ∀ s t : State, step s = .next t → s.nextMove.1 ≠ .reset →
    (s.nextMove.1 = .issue → s.Clean → ∀ c cs i, s.program = c :: cs → decodeCommand c = .ok i →
      i ≠ .mcInit ∧ setsClock i = false) →
    let rollsOver : Prop := s.nextMove.1 = .tick ∧ s.tickEnabled ∧ s.ticks = 9999
    (t.ovr = false →
      (rollsOver → t.seconds + (if t.rpend = true then 1 else 0) = s.seconds + (if s.rpend = true then 1 else 0) + 1) ∧
      (¬ rollsOver → t.seconds + (if t.rpend = true then 1 else 0) = s.seconds + (if s.rpend = true then 1 else 0))) ∧
    (rollsOver → t.ticks = 0) ∧
    (s.ovr = false → t.ovr = true → rollsOver ∧ t.seconds = s.seconds ∧ s.rpend = true ∧ t.rpend = true)

/-- The overrun (R242): from a pending rollover, 10000 ticks with no service lose one: OVR is set, and the service
that follows adds one second for the two rollovers. -/
def Obligations.DelayedServiceLosesOneSecond : Prop :=
  ∀ (s : State) (ms : List Move), s.Booted → s.ticks.toNat ≤ 9999 → s.rpend = true →
    Host.Core.run Sys2Proof.core 10001
        { s with sched := List.replicate 10000 .tick ++ .rollover :: ms } =
      .next { s with seconds := s.seconds + 1, rpend := false, ovr := true, sched := ms }

/-! ### Wire parsing -/

/-- TS.PARSE (R130): 8 bytes, most significant first, as two words; another length raises Fault(4). -/
def Obligations.TsParseReadsBigEndian : Prop :=
  ∀ (s : State), s.Clean →
    (∀ b0 b1 b2 b3 b4 b5 b6 b7 : Byte, ∃ sec frac : Word,
      sec.toNat = b0.toNat * 2 ^ 24 + b1.toNat * 2 ^ 16 + b2.toNat * 2 ^ 8 + b3.toNat ∧
      frac.toNat = b4.toNat * 2 ^ 24 + b5.toNat * 2 ^ 16 + b6.toNat * 2 ^ 8 + b7.toNat ∧
      exec (.tsParse [b0, b1, b2, b3, b4, b5, b6, b7]) s =
        .next { s with results := s.results ++ [.word sec, .word frac] }) ∧
    (∀ ts : List Byte, ts.length ≠ 8 → exec (.tsParse ts) s = .next { s with fault := 4 })

/-- TS.SERIALIZE (R131): the 8 bytes, most significant first. That parsing and serialising invert each other the spec
derives from R130 and R131. -/
def Obligations.TsSerializeInvertsParse : Prop :=
  ∀ (s : State), s.Clean →
    (∀ sec frac : Word, ∃ b : List Byte,
      b.map BitVec.toNat =
        [sec.toNat / 2 ^ 24, sec.toNat / 2 ^ 16 % 256, sec.toNat / 2 ^ 8 % 256, sec.toNat % 256,
          frac.toNat / 2 ^ 24, frac.toNat / 2 ^ 16 % 256, frac.toNat / 2 ^ 8 % 256, frac.toNat % 256] ∧
      exec (.tsSerialize sec frac) s = .next { s with results := s.results ++ [.bytes b] } ∧
      exec (.tsParse b) s = .next { s with results := s.results ++ [.word sec, .word frac] }) ∧
    (∀ b : List Byte, b.length = 8 → ∃ sec frac : Word,
      exec (.tsParse b) s = .next { s with results := s.results ++ [.word sec, .word frac] } ∧
      exec (.tsSerialize sec frac) s = .next { s with results := s.results ++ [.bytes b] })

/-- PKT.PARSE (R133) with the layout of R132: another size than 48 returns 0 alone; 48 bytes return 1 and the 15
fields, one-byte fields zero-extended, wider ones big-endian; no byte is interpreted. -/
def Obligations.PktParseReturnsEveryField : Prop :=
  ∀ (s : State) (n : Word) (p : List Byte), s.Clean → p.length = n.toNat →
    (n.toNat ≠ 48 → exec (.pktParse n p) s = .next { s with results := s.results ++ [.word 0] }) ∧
    (n.toNat = 48 →
      let byte (i : Nat) : Nat := (p.getD i 0).toNat
      let be (i : Nat) : Word :=
        BitVec.ofNat 32 (byte i * 2 ^ 24 + byte (i + 1) * 2 ^ 16 + byte (i + 2) * 2 ^ 8 + byte (i + 3))
      let words : List Word :=
        [1, BitVec.ofNat 32 (byte 0), BitVec.ofNat 32 (byte 1), BitVec.ofNat 32 (byte 2), BitVec.ofNat 32 (byte 3),
          be 4, be 8, be 12, be 16, be 20, be 24, be 28, be 32, be 36, be 40, be 44]
      exec (.pktParse n p) s = .next { s with results := s.results ++ words.map .word })

/-! ### Conversions -/

/-- CV.M2F (R170): the formula, each product and sum mod 2^32, no correction term. -/
def Obligations.MicrosToFractionFormula : Prop :=
  ∀ (s : State) (u : Word), s.Clean → ∃ frac : Word,
    frac.toNat =
      (4294 * u.toNat + 1981 * u.toNat % 2 ^ 32 / 2 ^ 11 + 2911 * u.toNat % 2 ^ 32 / 2 ^ 28) % 2 ^ 32 ∧
    exec (.cvM2f u) s = .next { s with results := s.results ++ [.word frac] }

/-- The range of M2F (R171): up to 999999 no product or sum wraps, and the result is the exact fraction's floor or one
less; beyond, the products first wrap where the rule says. -/
def Obligations.MicrosToFractionIsFloorOrOneLess : Prop :=
  (∀ u : Word, u.toNat ≤ 999999 →
    (m2f u).toNat = 4294 * u.toNat + 1981 * u.toNat / 2 ^ 11 + 2911 * u.toNat / 2 ^ 28 ∧
    (m2f u).toNat ≤ 4294963000 ∧
    ((m2f u).toNat = u.toNat * 2 ^ 32 / 10 ^ 6 ∨ (m2f u).toNat + 1 = u.toNat * 2 ^ 32 / 10 ^ 6)) ∧
  (∀ u : Word,
    ((4294 * u).toNat = 4294 * u.toNat ↔ u.toNat ≤ 1000225) ∧
    ((2911 * u).toNat = 2911 * u.toNat ↔ u.toNat ≤ 1475426) ∧
    ((1981 * u).toNat = 1981 * u.toNat ↔ u.toNat ≤ 2168080))

/-- CV.F2M (R172): the formula, written as a sum over the naturals, since the subtraction never goes below zero (R173,
which the spec derives from R172 by exhaustive evaluation). -/
def Obligations.FractionToMicrosFormula : Prop :=
  ∀ (s : State) (x : Word), s.Clean → ∃ usec : Word,
    usec.toNat + 759 * ((x.toNat / 2 ^ 10 + 32768) / 2 ^ 16) = x.toNat / 2 ^ 12 ∧
    exec (.cvF2m x) s = .next { s with results := s.results ++ [.word usec] }

/-- The range and error of F2M (R173): results lie in [0, 999999] and within 380 of the exact floor, both extremes
taken. -/
def Obligations.FractionToMicrosRangeAndError : Prop :=
  (∀ x : Word, (f2m x).toNat ≤ 999999 ∧
    (f2m x).toNat ≤ x.toNat * 10 ^ 6 / 2 ^ 32 + 380 ∧ x.toNat * 10 ^ 6 / 2 ^ 32 ≤ (f2m x).toNat + 380) ∧
  (f2m 0x01FF6000).toNat = 0x01FF6000 * 10 ^ 6 / 2 ^ 32 + 380 ∧
  (f2m 0x02000864).toNat + 380 = 0x02000864 * 10 ^ 6 / 2 ^ 32

/-- F2M is not monotonic (R173): it falls by 758 at the 64 points 2^26 k - 2^25, and nowhere else decreases. -/
def Obligations.FractionToMicrosFallsAtSixtyFourPoints : Prop :=
  ∀ x y : Word, y.toNat = x.toNat + 1 →
    ((∃ k : Nat, 1 ≤ k ∧ k ≤ 64 ∧ y.toNat + 2 ^ 25 = 2 ^ 26 * k) → (f2m y).toNat + 758 = (f2m x).toNat) ∧
    ((¬ ∃ k : Nat, 1 ≤ k ∧ k ≤ 64 ∧ y.toNat + 2 ^ 25 = 2 ^ 26 * k) → (f2m x).toNat ≤ (f2m y).toNat)

/-- The round trip (R174, derived by the spec from R170 and R172): for u up to 999999 the error lies in [-380, 379],
both taken, on the clock's grid in [-379, 378], and it first exceeds 1 at u = 42. -/
def Obligations.RoundTripErrorIsBounded : Prop :=
  (∀ u : Word, u.toNat ≤ 999999 →
    u.toNat ≤ (f2m (m2f u)).toNat + 380 ∧ (f2m (m2f u)).toNat ≤ u.toNat + 379) ∧
  (f2m (m2f 7813)).toNat + 380 = 7813 ∧ (f2m (m2f 7803)).toNat = 7803 + 379 ∧
  (∀ u : Word, u.toNat ≤ 999999 → u.toNat % 100 = 0 →
    u.toNat ≤ (f2m (m2f u)).toNat + 379 ∧ (f2m (m2f u)).toNat ≤ u.toNat + 378) ∧
  (∀ u : Word, u.toNat < 42 → u.toNat ≤ (f2m (m2f u)).toNat + 1 ∧ (f2m (m2f u)).toNat ≤ u.toNat + 1) ∧
  f2m (m2f 42) = 44

/-- CV.TO_NTP (R175): the seconds shifted by the UTC offset and the epoch mod 2^32, the microseconds through M2F. -/
def Obligations.ToNtpShiftsEpoch : Prop :=
  ∀ (s : State) (wsec wusec utc : Word), s.Clean → ∃ sec frac : Word,
    (sec.toNat : Int) = ((wsec.toNat : Int) - utc.toNat + 2208988800) % 2 ^ 32 ∧
    exec (.cvM2f wusec) s = .next { s with results := s.results ++ [.word frac] } ∧
    exec (.cvToNtp wsec wusec utc) s = .next { s with results := s.results ++ [.word sec, .word frac] }

/-! ### Offset arithmetic -/

/-- OC.DIFF (R150): the borrow branch is the complement, not two's-complement subtraction. -/
def Obligations.DiffUsesBorrowRepresentation : Prop :=
  ∀ (s : State) (aSec aFrac bSec bFrac : Word), s.Clean →
    (aFrac.toNat ≤ bFrac.toNat → exec (.ocDiff aSec aFrac bSec bFrac) s =
      .next { s with results := s.results ++ [.word (bSec - aSec), .word (bFrac - aFrac)] }) ∧
    (bFrac.toNat < aFrac.toNat → exec (.ocDiff aSec aFrac bSec bFrac) s =
      .next { s with results := s.results ++ [.word (bSec - aSec - 1), .word (~~~(aFrac - bFrac))] })

/-- What OC.DIFF computes (R151, which the spec derives from R150): the exact 64-bit difference mod 2^64, less one
unit in the borrow branch. -/
def Obligations.DiffIsExactOrOneUnitLow : Prop :=
  ∀ (s : State) (aSec aFrac bSec bFrac : Word), s.Clean → ∃ sec frac : Word,
    exec (.ocDiff aSec aFrac bSec bFrac) s =
      .next { s with results := s.results ++ [.word sec, .word frac] } ∧
    ((sec.toNat * 2 ^ 32 + frac.toNat : Nat) : Int) =
      (((bSec.toNat * 2 ^ 32 + bFrac.toNat : Nat) : Int) - ((aSec.toNat * 2 ^ 32 + aFrac.toNat : Nat) : Int)
        - (if aFrac.toNat ≤ bFrac.toNat then 0 else 1)) % 2 ^ 64

/-- OC.OFFSET (R152): the two differences, their microseconds summed with one carry, and each half taken alone, the
seconds' toward zero (the spec's D16), the microseconds' down. -/
def Obligations.OffsetHalvesCarriedSums : Prop :=
  ∀ (s : State) (t1s t1f t2s t2f t3s t3f t4s t4f : Word), s.Clean →
    ∃ d1s d1f d2s d2f u1 u2 osec ousec : Word,
      exec (.ocDiff t1s t1f t2s t2f) s = .next { s with results := s.results ++ [.word d1s, .word d1f] } ∧
      exec (.ocDiff t4s t4f t3s t3f) s = .next { s with results := s.results ++ [.word d2s, .word d2f] } ∧
      exec (.cvF2m d1f) s = .next { s with results := s.results ++ [.word u1] } ∧
      exec (.cvF2m d2f) s = .next { s with results := s.results ++ [.word u2] } ∧
      exec (.ocOffset t1s t1f t2s t2f t3s t3f t4s t4f) s =
        .next { s with results := s.results ++ [.word osec, .word ousec] } ∧
      (u1.toNat + u2.toNat < 1000000 →
        osec.toInt = (d1s + d2s).toInt.tdiv 2 ∧ ousec.toNat = (u1.toNat + u2.toNat) / 2) ∧
      (1000000 ≤ u1.toNat + u2.toNat →
        osec.toInt = (d1s + d2s + 1).toInt.tdiv 2 ∧ ousec.toNat = (u1.toNat + u2.toNat - 1000000) / 2)

/-- The carry needs one step (R153, which the spec derives from R152 and R173): each term is at most 999999, the sum
does not wrap, after one carry it is below 10^6, and the halved result is at most 499999. -/
def Obligations.OffsetCarriesAtMostOnce : Prop :=
  (∀ x y sec : Word, (f2m x).toNat ≤ 999999 ∧ (f2m x + f2m y).toNat = (f2m x).toNat + (f2m y).toNat ∧
    (f2m x).toNat + (f2m y).toNat ≤ 1999998 ∧ (carryOnce sec (f2m x + f2m y)).2.toNat < 1000000) ∧
  (∀ (s : State) (t1s t1f t2s t2f t3s t3f t4s t4f : Word), s.Clean → ∃ osec ousec : Word,
    exec (.ocOffset t1s t1f t2s t2f t3s t3f t4s t4f) s =
      .next { s with results := s.results ++ [.word osec, .word ousec] } ∧ ousec.toNat ≤ 499999)

/-- Halving is literal (R154): an odd seconds sum loses its half second; the rule's example returns -1 s where the
true offset is -1.5 s. -/
def Obligations.OffsetHalvingDropsHalfSecond : Prop :=
  ∀ s : State, s.Clean →
    exec (.ocOffset 100 0 100 0 100 0 103 0) s =
      .next { s with results := s.results ++ [.word 0xFFFFFFFF, .word 0] }

/-- OC.APPLY_CALC (R155): the seconds mod 2^32, the microseconds normalised once. That an offset from OC.OFFSET leaves
them below 10^6 the spec derives from R153 and R173. -/
def Obligations.ApplyCalcNormalisesOnce : Prop :=
  ∀ (s : State) (t4s t4f osec ousec utc : Word), s.Clean → ∃ u nsec nusec : Word,
    exec (.cvF2m t4f) s = .next { s with results := s.results ++ [.word u] } ∧
    exec (.ocApplyCalc t4s t4f osec ousec utc) s =
      .next { s with results := s.results ++ [.word nsec, .word nusec] } ∧
    ((u + ousec).toNat < 1000000 → nsec = t4s - 2208988800 + osec + utc ∧ nusec = u + ousec) ∧
    (1000000 ≤ (u + ousec).toNat →
      nsec = t4s - 2208988800 + osec + utc + 1 ∧ nusec.toNat + 1000000 = (u + ousec).toNat) ∧
    (ousec.toNat ≤ 499999 → nusec.toNat < 1000000)

/-- OC.APPLY (R156): what OC.APPLY_CALC returns, and MC.SET_TIME of it, in one step; Fault(2) before any write when
CFG = 0. -/
def Obligations.ApplySetsClockInOneStep : Prop :=
  ∀ (s : State) (t4s t4f osec ousec utc : Word), s.Clean →
    (s.cfg = true → ∃ nsec nusec tk : Word,
      exec (.ocApplyCalc t4s t4f osec ousec utc) s =
        .next { s with results := s.results ++ [.word nsec, .word nusec] } ∧
      tk.toNat = nusec.toNat / 100 % 10000 ∧
      exec (.ocApply t4s t4f osec ousec utc) s =
        .next { s with
          seconds := nsec, ticks := tk, rpend := false, ien := true, ten := true,
          results := s.results ++ [.word nsec, .word nusec] }) ∧
    (s.cfg = false → exec (.ocApply t4s t4f osec ousec utc) s = .next { s with fault := 2 })

/-- Apply inverts TO_NTP in the seconds (R176, derived by the spec from R175 and R155): with a zero offset and the
same UTC offset it returns the wall seconds and F2M(M2F(wusec)), at most 999999 and within R174's bound of wusec up to
999999. -/
def Obligations.ApplyInvertsToNtp : Prop :=
  ∀ (s : State) (wsec wusec utc : Word), s.Clean → ∃ sec frac nusec : Word,
    exec (.cvToNtp wsec wusec utc) s = .next { s with results := s.results ++ [.word sec, .word frac] } ∧
    exec (.ocApplyCalc sec frac 0 0 utc) s =
      .next { s with results := s.results ++ [.word wsec, .word nusec] } ∧
    nusec = f2m (m2f wusec) ∧ nusec.toNat ≤ 999999 ∧
    (wusec.toNat ≤ 999999 → wusec.toNat ≤ nusec.toNat + 380 ∧ nusec.toNat ≤ wusec.toNat + 379)

/-! ### Encoding -/

/-- An illegal command (R76), by its OPC or by a non-zero RSV, raises Fault(1) whatever operand items come with it and
whatever the clock's state, and writes nothing else of the block. That the command leaves FG's program with its operand
items is the model's choice (log entry 5). -/
def Obligations.IllegalCommandRaisesFaultOne : Prop :=
  ∀ (s : State) (c : Command) (cs : List Command) (ms : List Move), s.Clean →
    (c.word.toNat / 256 ≠ 0 ∨ c.word.toNat % 256 ∉
      [0x01, 0x02, 0x03, 0x04, 0x10, 0x11, 0x12, 0x20, 0x21, 0x22, 0x30, 0x31, 0x32, 0x33]) →
    step { s with program := c :: cs, sched := .issue :: ms } =
      .next { s with program := cs, sched := ms, fault := 1 }

/-- The words of the opcode table are never illegal (R74): with RSV = 0 and an OPC of the table the decoder does not
answer illegalCmd, whatever operand items follow. -/
def Obligations.TableWordsAreNeverIllegal : Prop :=
  ∀ w : Word, w.toNat ∈ [0x01, 0x02, 0x03, 0x04, 0x10, 0x11, 0x12, 0x20, 0x21, 0x22, 0x30, 0x31, 0x32, 0x33] →
    ∀ rest : List Item, decode (.word w :: rest) ≠ .error .illegalCmd

/-- Decoding what the encoder writes gives the instruction back, every operand at every value, and leaves exactly the
items behind the command (R70, R71). -/
def Obligations.DecodeInvertsEncode : Prop :=
  ∀ (i : Instr) (rest : List Item), i.wellFormed = true → decode (encode i ++ rest) = .ok (i, rest)

/-- Whatever the decoder accepts is the encoding of a well-formed instruction: no two streams mean one command. -/
def Obligations.EncodeInvertsDecode : Prop :=
  ∀ (items : List Item) (i : Instr) (rest : List Item), decode items = .ok (i, rest) →
    i.wellFormed = true ∧ items = encode i ++ rest

/-- Words written out from the opcode map (R74) and the programs of 95_test_vectors.md section 3. -/
def Obligations.SpecCommandWordsDecode : Prop :=
  decode [.word 0x00000001] = .ok (.mcInit, []) ∧
  decode [.word 0x00000003, .word 0x000003E8, .word 0x0001E240] = .ok (.mcSetTime 1000 123456, []) ∧
  decode [.word 0x00000010, .bytes [0x00, 0x00, 0x00, 0x64, 0x80, 0x00, 0x00, 0x00]] =
    .ok (.tsParse [0x00, 0x00, 0x00, 0x64, 0x80, 0x00, 0x00, 0x00], []) ∧
  decode [.word 0x00000022, .word 0x7C5581E4, .word 0, .word 0] = .ok (.cvToNtp 2085978596 0 0, []) ∧
  decode [.word 0x00000033, .word 0x6E, .word 0, .word 0, .word 0x0003D090, .word 0] =
    .ok (.ocApply 110 0 0 250000 0, [])

/-! ### The machine -/

/-- A step runs the decoded command: where FG moves next and may issue, and its command decodes to `i`, the step is
`exec i` with the command taken from FG's program and the move from the schedule, the model's own fields (log entries
1, 5). -/
def Obligations.StepIssuesDecodedCommand : Prop :=
  ∀ (s : State) (c : Command) (cs : List Command) (ms : List Move) (i : Instr), s.Clean →
    decodeCommand c = .ok i →
    step { s with program := c :: cs, sched := .issue :: ms } = exec i { s with program := cs, sched := ms }

/-- An instruction placed by withFetchWord is the one the next step runs, on the state it was placed in: the model's
own way to place one (log entries 6, 10). -/
def Obligations.PlacedWordRunsNext : Prop :=
  ∀ (s : State) (nbits w : Nat) (i : Instr), s.Clean → decodeTableWord nbits w = some i →
    step (s.withFetchWord nbits w) = exec i s

/-- Every command answers a next state where FG may issue it (R215): a well-formed command in every state with FAULT =
0 and GT = Closed. The next state may be the entry of a fault (log entry 11), and MC.GET_TIME's is the opening of its
window; the statements of each command say where it completes. -/
def Obligations.CleanStatesCompleteEveryCommand : Prop :=
  ∀ (i : Instr) (s : State), i.wellFormed = true → s.Clean → ∃ t, exec i s = .next t

/-- Where no command can be issued none has an effect (R27, R205): in the fault state it stops as quiescent, in an
open window as windowOpen (log entry 9). -/
def Obligations.CommandsStopWhereNoneMayIssue : Prop :=
  ∀ (i : Instr) (s : State), i.wellFormed = true →
    (s.fault ≠ 0 → exec i s = .fault .quiescent) ∧
    (∀ a b, s.fault = 0 → s.gt = .opened a b → exec i s = .refused .windowOpen)

/-- A step stops only on a delivery that is no command (log entry 8): every other step answers a next state. -/
def Obligations.StepStopsOnlyOnMalformedDelivery : Prop :=
  ∀ s : State, (∃ t, step s = .next t) ∨
    (s.nextMove.1 = .issue ∧ s.Clean ∧ ∃ c cs e, s.program = c :: cs ∧ decodeCommand c = .error e ∧
      e ≠ .illegalCmd ∧ step s = .refused .malformedCommand)

/-- The fault state (R205): once FAULT is non-zero no agent's move changes a state item or returns a result, until
EV.RESET. That such a move is still a step, one that changes nothing, is the model's choice (log entry 2). -/
def Obligations.FaultStateIsQuiescent : Prop :=
  ∀ s : State, s.fault ≠ 0 → s.nextMove.1 ≠ .reset →
    ∃ t, step s = .next t ∧ s.SameBlock t ∧ t.results = s.results ∧ t.program = s.program

/-- While GT is open FG issues no other operation (R27): its command stays where it is. That the move is still a step
is the model's choice (log entry 2). -/
def Obligations.OpenWindowHoldsBackCommands : Prop :=
  ∀ (s : State) (ms : List Move) (a b : Option Word),
    step { s with gt := .opened a b, sched := .issue :: ms } = .next { s with gt := .opened a b, sched := ms }

/-- Every step of every agent keeps the invariant: TICKS in range (R22), TEN = IEN (R30), a legal FAULT (R28), a legal
window (R27), and an idle timer before MC.INIT. -/
def Obligations.EveryStepKeepsInvariant : Prop :=
  ∀ s t : State, s.Inv → step s = .next t → t.Inv

/-- Who writes SECONDS (R21): EV.ROLLOVER, adding one, an issued MC.SET_TIME or OC.APPLY, and EV.RESET; no other step.
-/
def Obligations.OnlyServiceAndSetTimeWriteSeconds : Prop :=
  ∀ s t : State, step s = .next t → t.seconds ≠ s.seconds →
    (s.nextMove.1 = .rollover ∧ s.irq = true ∧ t.seconds = s.seconds + 1) ∨
    (s.nextMove.1 = .issue ∧ s.cfg = true ∧
      ∃ c cs i, s.program = c :: cs ∧ decodeCommand c = .ok i ∧ setsClock i = true) ∨
    s.nextMove.1 = .reset

/-- Who writes CFG and FAULT (R26, R28): CFG is set by an issued MC.INIT and cleared by reset alone; FAULT changes
from 0 by an issued command and back by reset alone. -/
def Obligations.OnlyInitAndResetWriteCfg : Prop :=
  ∀ s t : State, step s = .next t → s.nextMove.1 ≠ .reset →
    (t.cfg ≠ s.cfg → t.cfg = true ∧ s.nextMove.1 = .issue ∧
      ∃ c cs, s.program = c :: cs ∧ decodeCommand c = .ok .mcInit) ∧
    (t.fault ≠ s.fault → s.fault = 0 ∧ s.nextMove.1 = .issue)

/-- Who sets and clears RPEND (R25): only EV.TICK sets it, at tick 9999; EV.ROLLOVER, an issued MC.INIT, MC.SET_TIME
or OC.APPLY, and reset clear it. -/
def Obligations.OnlyTickSetsPending : Prop :=
  ∀ s t : State, step s = .next t →
    (s.rpend = false → t.rpend = true → s.nextMove.1 = .tick ∧ s.ticks = 9999 ∧ t.ticks = 0) ∧
    (s.rpend = true → t.rpend = false → s.nextMove.1 = .rollover ∨ s.nextMove.1 = .reset ∨
      (s.nextMove.1 = .issue ∧ ∃ c cs i, s.program = c :: cs ∧ decodeCommand c = .ok i ∧
        (i = .mcInit ∨ setsClock i = true)))

/-- The computing commands are pure functions of their operands (R57, R232): one function of the instruction alone
says what each returns in every clean state, before and after MC.INIT; they write no state item, but for TS.PARSE's
Fault(4) (R130). -/
def Obligations.ComputingCommandsArePure : Prop :=
  ∃ f : Instr → Option (List Item), ∀ (i : Instr) (s : State), isPure i = true → i.wellFormed = true → s.Clean →
    (∀ rs, f i = some rs → exec i s = .next { s with results := s.results ++ rs }) ∧
    (f i = none → exec i s = .next { s with fault := 4 } ∧ ∃ ts, i = .tsParse ts ∧ ts.length ≠ 8)

/-- The frame of the clock's commands, for each next state: what each leaves as it was (R100, R103, R106, R107, R156;
reads have no side effect, R57), and what no command touches. -/
def Obligations.ClockCommandsFrame : Prop :=
  ∀ (i : Instr) (s t : State), exec i s = .next t →
    t.ovr = s.ovr ∧ t.program = s.program ∧ t.sched = s.sched ∧ t.draws = s.draws ∧
    (i = .mcInit → t.seconds = s.seconds ∧ t.ticks = s.ticks ∧ t.gt = s.gt ∧ t.results = s.results) ∧
    (i = .mcGetTime → t = { s with gt := t.gt, fault := t.fault } ∧ t.results = s.results) ∧
    (i = .mcNowSeconds → t = { s with results := t.results, fault := t.fault }) ∧
    (∀ sec usec, i = .mcSetTime sec usec → t.cfg = s.cfg ∧ t.gt = s.gt ∧ t.results = s.results) ∧
    (setsClock i = true → t.cfg = s.cfg ∧ t.gt = s.gt)

/-- No rule reads OVR (R29): from two states that differ in OVR alone, every step answers alike and leaves states that
differ in OVR alone. -/
def Obligations.GhostBitChangesNoBehaviour : Prop :=
  ∀ (s : State) (b : Bool),
    (∀ t, step s = .next t → ∃ b', step { s with ovr := b } = .next { t with ovr := b' }) ∧
    (∀ r, step s = .refused r → step { s with ovr := b } = .refused r)

/-- Fairness (R210) is enough for service: in an execution without faults in which ISR is weakly fair, an interrupt
request does not stay set for ever. -/
def Obligations.FairServiceEndsRequest : Prop :=
  ∀ σ : Nat → State, Execution σ → IsrFair σ → (∀ n, (σ n).fault = 0) →
    ∀ n, ∃ m, n ≤ m ∧ (σ m).irq = false

/-! ### The run of a launch -/

/-- Where the run of a launch ends (R217). It ends only at a fault or with every command issued and completed, and at the
first such state, the result items of the run being what the results gained. It does end there: wherever the machine
reaches a fault, or has no command left and no window open, and no read was cut off by EV.RESET on the way. A read that
EV.RESET cuts off in its window never completes, so its run has no end (how the model reads R217 there, log entry 22). -/
def Obligations.RunEndsAtLastCompletionOrFirstFault : Prop :=
  (∀ (s t : State) (k : Nat), s.Clean → s.EndsWithin k t →
    (t.fault ≠ 0 ∨ (t.program = [] ∧ t.gt = .closed)) ∧
    t.results = s.results ++ (observation s t).1 ∧
    ∃ n, n ≤ k ∧ Host.Core.run Sys2Proof.core n s = .next t ∧
      ∀ m, m < n → ∃ u, Host.Core.run Sys2Proof.core m s = .next u ∧ u.fault = 0 ∧
        (u.program ≠ [] ∨ u.gt ≠ .closed)) ∧
  (∀ (s t : State) (k : Nat), s.Clean → Host.Core.run Sys2Proof.core k s = .next t →
    (∀ m u, m < k → Host.Core.run Sys2Proof.core m s = .next u → u.nextMove.1 = .reset → u.gt = .closed) →
    (t.fault ≠ 0 ∨ (t.program = [] ∧ t.gt = .closed)) → ∃ u, s.EndsWithin k u) ∧
  (∀ (s : State) (ms : List Move) (k : Nat) (a b : Option Word), s.fault = 0 → s.program = [] →
    runEnd k 1 { s with gt := .opened a b, sched := .reset :: ms } = none)

/-! ### FG's programs -/

/-- CAPTURE_NTP (R78), for every operand that stands for a word, under any names bound before: its first line is
MC.GET_TIME and, with the results bound, its second line is CV.TO_NTP of them. An operand written `ws` or `wus` would
mean the line's own (log entry 16). -/
def Obligations.CaptureNtpConvertsGetTime : Prop :=
  ∀ (env : AsmEnv) (o : AsmOperand) (ws wus utc : Word) (sec frac : String),
    asmItem env o = some (.word utc) → o ≠ .name "ws" → o ≠ .name "wus" → ∃ l1 l2 : AsmLine,
      captureNtp o sec frac = [l1, l2] ∧
      assemble env l1 = some (encodeCommand .mcGetTime) ∧
      assemble (bindResults env l1 [.word ws, .word wus]) l2 = some (encodeCommand (.cvToNtp ws wus utc)) ∧
      l2.results = [sec, frac]

/-- OC.SYNC (R79), for all operands that stand for words, under any names bound before: its first line is OC.OFFSET of
the four timestamps and, with that offset bound, its second line is OC.APPLY of T4 and the offset. An operand of the
second line written `osec` or `ousec` would mean the offset (log entry 16). -/
def Obligations.OcSyncAppliesOffset : Prop :=
  ∀ (env : AsmEnv) (o1s o1f o2s o2f o3s o3f o4s o4f outc : AsmOperand)
    (t1s t1f t2s t2f t3s t3f t4s t4f utc osec ousec : Word) (nsec nusec : String),
    asmItems env [o1s, o1f, o2s, o2f, o3s, o3f, o4s, o4f, outc] =
      some (wordItems [t1s, t1f, t2s, t2f, t3s, t3f, t4s, t4f, utc]) →
    (∀ o ∈ [o4s, o4f, outc], o ≠ .name "osec" ∧ o ≠ .name "ousec") → ∃ l1 l2 : AsmLine,
      ocSync o1s o1f o2s o2f o3s o3f o4s o4f outc nsec nusec = [l1, l2] ∧
      assemble env l1 = some (encodeCommand (.ocOffset t1s t1f t2s t2f t3s t3f t4s t4f)) ∧
      assemble (bindResults env l1 [.word osec, .word ousec]) l2 =
        some (encodeCommand (.ocApply t4s t4f osec ousec utc)) ∧
      l2.results = [nsec, nusec]

end
end

