-- ==== Sys2Proof/Laws/State.lean ====
section
/-! SUPPORT. What each field is after each update of a state: one lemma a field, true by `rfl`. -/

namespace Sys2Proof.Machine

section
variable (s : State) (rs : List Item)

@[simp] theorem State.respond_seconds : (s.respond rs).seconds = s.seconds := rfl
@[simp] theorem State.respond_ticks : (s.respond rs).ticks = s.ticks := rfl
@[simp] theorem State.respond_ten : (s.respond rs).ten = s.ten := rfl
@[simp] theorem State.respond_ien : (s.respond rs).ien = s.ien := rfl
@[simp] theorem State.respond_rpend : (s.respond rs).rpend = s.rpend := rfl
@[simp] theorem State.respond_cfg : (s.respond rs).cfg = s.cfg := rfl
@[simp] theorem State.respond_gt : (s.respond rs).gt = s.gt := rfl
@[simp] theorem State.respond_fault : (s.respond rs).fault = s.fault := rfl
@[simp] theorem State.respond_ovr : (s.respond rs).ovr = s.ovr := rfl
@[simp] theorem State.respond_program : (s.respond rs).program = s.program := rfl
@[simp] theorem State.respond_results : (s.respond rs).results = s.results ++ rs := rfl
@[simp] theorem State.respond_sched : (s.respond rs).sched = s.sched := rfl
@[simp] theorem State.respond_draws : (s.respond rs).draws = s.draws := rfl

end

section
variable (s : State) (ws : List Word)

@[simp] theorem State.respondWords_seconds : (s.respondWords ws).seconds = s.seconds := rfl
@[simp] theorem State.respondWords_ticks : (s.respondWords ws).ticks = s.ticks := rfl
@[simp] theorem State.respondWords_ten : (s.respondWords ws).ten = s.ten := rfl
@[simp] theorem State.respondWords_ien : (s.respondWords ws).ien = s.ien := rfl
@[simp] theorem State.respondWords_rpend : (s.respondWords ws).rpend = s.rpend := rfl
@[simp] theorem State.respondWords_cfg : (s.respondWords ws).cfg = s.cfg := rfl
@[simp] theorem State.respondWords_gt : (s.respondWords ws).gt = s.gt := rfl
@[simp] theorem State.respondWords_fault : (s.respondWords ws).fault = s.fault := rfl
@[simp] theorem State.respondWords_ovr : (s.respondWords ws).ovr = s.ovr := rfl
@[simp] theorem State.respondWords_program : (s.respondWords ws).program = s.program := rfl
@[simp] theorem State.respondWords_results : (s.respondWords ws).results = s.results ++ wordItems ws := rfl
@[simp] theorem State.respondWords_sched : (s.respondWords ws).sched = s.sched := rfl
@[simp] theorem State.respondWords_draws : (s.respondWords ws).draws = s.draws := rfl

end

section
variable (s : State) (sec usec : Word)

@[simp] theorem State.setTime_seconds : (s.setTime sec usec).seconds = sec := rfl
@[simp] theorem State.setTime_ticks : (s.setTime sec usec).ticks = (usec / Config.usPerTick) % Config.ticksPerSecond := rfl
@[simp] theorem State.setTime_ten : (s.setTime sec usec).ten = true := rfl
@[simp] theorem State.setTime_ien : (s.setTime sec usec).ien = true := rfl
@[simp] theorem State.setTime_rpend : (s.setTime sec usec).rpend = false := rfl
@[simp] theorem State.setTime_cfg : (s.setTime sec usec).cfg = s.cfg := rfl
@[simp] theorem State.setTime_gt : (s.setTime sec usec).gt = s.gt := rfl
@[simp] theorem State.setTime_fault : (s.setTime sec usec).fault = s.fault := rfl
@[simp] theorem State.setTime_ovr : (s.setTime sec usec).ovr = s.ovr := rfl
@[simp] theorem State.setTime_program : (s.setTime sec usec).program = s.program := rfl
@[simp] theorem State.setTime_results : (s.setTime sec usec).results = s.results := rfl
@[simp] theorem State.setTime_sched : (s.setTime sec usec).sched = s.sched := rfl
@[simp] theorem State.setTime_draws : (s.setTime sec usec).draws = s.draws := rfl

end

section
variable (s : State) (c : FaultCode)

@[simp] theorem State.raise_seconds : (s.raise c).seconds = s.seconds := by unfold State.raise; split <;> rfl
@[simp] theorem State.raise_ticks : (s.raise c).ticks = s.ticks := by unfold State.raise; split <;> rfl
@[simp] theorem State.raise_ten : (s.raise c).ten = s.ten := by unfold State.raise; split <;> rfl
@[simp] theorem State.raise_ien : (s.raise c).ien = s.ien := by unfold State.raise; split <;> rfl
@[simp] theorem State.raise_rpend : (s.raise c).rpend = s.rpend := by unfold State.raise; split <;> rfl
@[simp] theorem State.raise_cfg : (s.raise c).cfg = s.cfg := by unfold State.raise; split <;> rfl
@[simp] theorem State.raise_gt : (s.raise c).gt = s.gt := by unfold State.raise; split <;> rfl
@[simp] theorem State.raise_ovr : (s.raise c).ovr = s.ovr := by unfold State.raise; split <;> rfl
@[simp] theorem State.raise_program : (s.raise c).program = s.program := by unfold State.raise; split <;> rfl
@[simp] theorem State.raise_results : (s.raise c).results = s.results := by unfold State.raise; split <;> rfl
@[simp] theorem State.raise_sched : (s.raise c).sched = s.sched := by unfold State.raise; split <;> rfl
@[simp] theorem State.raise_draws : (s.raise c).draws = s.draws := by unfold State.raise; split <;> rfl

/-- In a state without a fault, raising one writes its code and nothing else (60_exceptions.md R202, R205). -/
theorem State.raise_of_clean (h : s.fault = 0) : s.raise c = { s with fault := faultCode c } := if_pos h

/-- The first fault stays (10_state.md R28). -/
theorem State.raise_of_faulted (h : s.fault ≠ 0) : s.raise c = s := if_neg h

end

end Sys2Proof.Machine
end

