-- ==== Sys2Proof/Laws/Ops.lean ====
section
/-! SUPPORT. What each shared operation can do, said once: the lemmas later proofs cite instead of unfolding it. -/

namespace Sys2Proof.Machine

/-- Where FG may issue, a performed command answers exactly its effect. -/
theorem State.perform_of_clean {s : State} (h : s.Clean) (f : State → State) : s.perform f = .next (f s) := by
  simp [State.perform, h.1, h.2]

/-- A performed command answers a next state only where FG may issue, and then its effect. -/
theorem State.perform_next {s t : State} {f : State → State} (h : s.perform f = .next t) :
    s.Clean ∧ t = f s := by
  unfold State.perform at h
  split at h
  · rename_i hf
    split at h
    · rename_i hg
      exact ⟨⟨hf, hg⟩, by simpa using h.symm⟩
    · cases h
  · cases h

/-- In the fault state a command stops as `quiescent` (60_exceptions.md R205). -/
theorem State.perform_of_faulted {s : State} (h : s.fault ≠ 0) (f : State → State) :
    s.perform f = .fault .quiescent :=
  if_neg h

/-- In an open window a command stops as `windowOpen` (10_state.md R27). -/
theorem State.perform_of_open {s : State} {a b : Option Word} (h : s.fault = 0) (hg : s.gt = .opened a b)
    (f : State → State) : s.perform f = .refused .windowOpen := by
  simp [State.perform, h, hg]

/-- After MC.INIT the check passes. -/
theorem State.requireInit_of_cfg {s : State} (h : s.cfg = true) (f : State → State) : s.requireInit f = f s := by
  simp [State.requireInit, h]

/-- Before MC.INIT the check raises Fault(2) (60_exceptions.md R200). -/
theorem State.requireInit_of_not_cfg {s : State} (h : s.cfg = false) (f : State → State) :
    s.requireInit f = s.raise .uninit := by
  simp [State.requireInit, h]

/-- The next tick is a rollover exactly at tick 9999 (40_clock.md R101). -/
theorem State.atRollover_iff (s : State) : s.atRollover ↔ s.ticks = 9999 := Iff.rfl

/-- The three things EV.TICK can do. -/
theorem State.evTick_cases (s : State) :
    (¬ s.tickEnabled ∧ s.evTick = s) ∨
    (s.tickEnabled ∧ s.ticks = 9999 ∧
      s.evTick = { s with ticks := 0, ovr := s.ovr || s.rpend, rpend := true }) ∨
    (s.tickEnabled ∧ s.ticks ≠ 9999 ∧ s.evTick = { s with ticks := s.ticks + 1 }) := by
  by_cases he : s.tickEnabled
  · have hs : s.evTick = s.tick := if_pos he
    by_cases ht : s.ticks = 9999
    · exact .inr (.inl ⟨he, ht, hs.trans (if_pos ((s.atRollover_iff).mpr ht))⟩)
    · exact .inr (.inr ⟨he, ht, hs.trans (if_neg (mt (s.atRollover_iff).mp ht))⟩)
  · exact .inl ⟨he, if_neg he⟩

/-- The two things EV.ROLLOVER can do. -/
theorem State.evRollover_cases (s : State) :
    (¬ s.rolloverEnabled ∧ s.evRollover = s) ∨
    (s.rolloverEnabled ∧ s.evRollover = { s with seconds := s.seconds + 1, rpend := false }) := by
  by_cases he : s.rolloverEnabled
  · exact .inr ⟨he, if_pos he⟩
  · exact .inl ⟨he, if_neg he⟩

/-- The two things SAMPLE_S can do. -/
theorem State.sampleSeconds_cases (s : State) :
    s.sampleSeconds = s ∨
    ∃ t, s.fault = 0 ∧ s.gt = .opened none t ∧
      s.sampleSeconds = { s with gt := .opened (some s.seconds) t } := by
  unfold State.sampleSeconds
  split
  · rename_i hf
    split
    · exact .inl rfl
    · exact .inl rfl
    · rename_i t hg; exact .inr ⟨t, hf, hg, rfl⟩
  · exact .inl rfl

/-- The two things SAMPLE_T can do. -/
theorem State.sampleTicks_cases (s : State) :
    s.sampleTicks = s ∨
    ∃ a, s.fault = 0 ∧ s.gt = .opened a none ∧
      s.sampleTicks = { s with gt := .opened a (some s.ticks) } := by
  unfold State.sampleTicks
  split
  · rename_i hf
    split
    · exact .inl rfl
    · exact .inl rfl
    · rename_i a hg; exact .inr ⟨a, hf, hg, rfl⟩
  · exact .inl rfl

/-- The two things the completion of MC.GET_TIME can do. -/
theorem State.completeGetTime_cases (s : State) :
    s.completeGetTime = s ∨
    ∃ a b, s.fault = 0 ∧ s.gt = .opened (some a) (some b) ∧
      s.completeGetTime = { s with gt := .closed, results := s.results ++ wordItems [a, b * Config.usPerTick] } := by
  unfold State.completeGetTime
  split
  · rename_i hf
    split
    · exact .inl rfl
    · exact .inl rfl
    · exact .inl rfl
    · rename_i a b hg; exact .inr ⟨a, b, hf, hg, rfl⟩
  · exact .inl rfl

/-- Choosing the next move changes only the schedule and the count of free values. -/
theorem State.nextMove_state (s : State) :
    s.nextMove.2 = { s with sched := s.nextMove.2.sched, draws := s.nextMove.2.draws } := by
  unfold State.nextMove
  split <;> rfl

/-- A scheduled move is the next one. -/
theorem State.nextMove_of_sched {s : State} {m : Move} {ms : List Move} (h : s.sched = m :: ms) :
    s.nextMove = (m, { s with sched := ms }) := by
  simp [State.nextMove, h]

/-- Everything an issue can do: nothing, the decoded command, an illegal command's fault, or a refusal. -/
theorem issueCommand_cases (s : State) :
    (issueCommand s = .next s ∧ (¬ s.Clean ∨ s.program = [])) ∨
    (s.Clean ∧ ∃ c cs i, s.program = c :: cs ∧ decodeCommand c = .ok i ∧
      issueCommand s = exec i { s with program := cs }) ∨
    (s.Clean ∧ ∃ c cs, s.program = c :: cs ∧ decodeCommand c = .error .illegalCmd ∧
      issueCommand s = .next { s with program := cs, fault := 1 }) ∨
    (s.Clean ∧ ∃ c cs e, s.program = c :: cs ∧ decodeCommand c = .error e ∧ e ≠ .illegalCmd ∧
      issueCommand s = .refused .malformedCommand) := by
  by_cases hr : s.Clean
  · have hf : s.fgReady := hr
    cases hp : s.program with
    | nil => exact .inl ⟨by simp [issueCommand, hp], .inr rfl⟩
    | cons c cs =>
      cases hd : decodeCommand c with
      | ok i => exact .inr (.inl ⟨hr, c, cs, i, rfl, hd, by simp [issueCommand, if_pos hf, hp, hd]⟩)
      | error e =>
        cases e with
        | illegalCmd =>
          exact .inr (.inr (.inl ⟨hr, c, cs, rfl, hd, by
            simp [issueCommand, if_pos hf, hp, hd, State.raise, hr.1, faultCode]⟩))
        | noCommandWord =>
          exact .inr (.inr (.inr ⟨hr, c, cs, _, rfl, hd, by decide, by simp [issueCommand, if_pos hf, hp, hd]⟩))
        | operandItems =>
          exact .inr (.inr (.inr ⟨hr, c, cs, _, rfl, hd, by decide, by simp [issueCommand, if_pos hf, hp, hd]⟩))
        | packetLength =>
          exact .inr (.inr (.inr ⟨hr, c, cs, _, rfl, hd, by decide, by simp [issueCommand, if_pos hf, hp, hd]⟩))
        | trailingItems =>
          exact .inr (.inr (.inr ⟨hr, c, cs, _, rfl, hd, by decide, by simp [issueCommand, if_pos hf, hp, hd]⟩))
  · exact .inl ⟨if_neg hr, .inl hr⟩

end Sys2Proof.Machine
end

