-- ==== Sys2Proof/Laws/Exec.lean ====
section
/-! SUPPORT. Everything an issued command can do, said once for all of them. -/

namespace Sys2Proof.Machine

/-- What command `i` can leave of a state in which it was issued. -/
inductive Effect (i : Instr) (s : State) : State → Prop where
  /-- It returned items and wrote no state item. -/
  | answered (hs : setsClock i = false) (rs : List Item) : Effect i s (s.respond rs)
  /-- It raised a fault. -/
  | faulted (c : FaultCode) : Effect i s (s.raise c)
  /-- It configured the clock (MC.INIT). -/
  | configured (hi : i = .mcInit) (hc : s.cfg = false) :
      Effect i s { s with cfg := true, rpend := false, ien := true, ten := true }
  /-- It opened the GET_TIME window. -/
  | windowed (hi : i = .mcGetTime) (hc : s.cfg = true) : Effect i s { s with gt := .opened none none }
  /-- It overwrote the clock (MC.SET_TIME). -/
  | timeSet (sec usec : Word) (hi : i = .mcSetTime sec usec) (hc : s.cfg = true) : Effect i s (s.setTime sec usec)
  /-- It overwrote the clock and returned the time it set (OC.APPLY). -/
  | applied (sec usec : Word) (hi : setsClock i = true) (hc : s.cfg = true) :
      Effect i s ((s.setTime sec usec).respondWords [sec, usec])

/-- The check that the clock is configured goes one of two ways. -/
theorem State.requireInit_cases (s : State) (f : State → State) :
    (s.cfg = true ∧ s.requireInit f = f s) ∨ (s.cfg = false ∧ s.requireInit f = s.raise .uninit) := by
  cases h : s.cfg with
  | true => exact .inl ⟨rfl, State.requireInit_of_cfg h f⟩
  | false => exact .inr ⟨rfl, State.requireInit_of_not_cfg h f⟩

/-- A command that answers a next state was issued where FG may issue, and had one of the effects above. -/
theorem exec_cases {i : Instr} {s t : State} (h : exec i s = .next t) : s.Clean ∧ Effect i s t := by
  cases i with
  | mcInit =>
    simp only [exec, execMcInit] at h
    obtain ⟨hc, rfl⟩ := State.perform_next h
    refine ⟨hc, ?_⟩
    split
    · exact .faulted _
    · exact .configured rfl (by simp_all)
  | mcGetTime =>
    simp only [exec, execMcGetTime] at h
    obtain ⟨hc, rfl⟩ := State.perform_next h
    refine ⟨hc, ?_⟩
    rcases s.requireInit_cases fun s => { s with gt := .opened none none } with ⟨hg, e⟩ | ⟨_, e⟩ <;> rw [e]
    · exact .windowed rfl hg
    · exact .faulted _
  | mcSetTime sec usec =>
    simp only [exec, execMcSetTime] at h
    obtain ⟨hc, rfl⟩ := State.perform_next h
    refine ⟨hc, ?_⟩
    rcases s.requireInit_cases fun s => s.setTime sec usec with ⟨hg, e⟩ | ⟨_, e⟩ <;> rw [e]
    · exact .timeSet _ _ rfl hg
    · exact .faulted _
  | mcNowSeconds =>
    simp only [exec, execMcNowSeconds] at h
    obtain ⟨hc, rfl⟩ := State.perform_next h
    refine ⟨hc, ?_⟩
    rcases s.requireInit_cases fun s => s.respondWords [s.seconds] with ⟨_, e⟩ | ⟨_, e⟩ <;> rw [e]
    · exact .answered rfl _
    · exact .faulted _
  | tsParse ts =>
    simp only [exec, execTsParse] at h
    obtain ⟨hc, rfl⟩ := State.perform_next h
    refine ⟨hc, ?_⟩
    split
    · exact .answered rfl _
    · exact .faulted _
  | pktParse n p =>
    simp only [exec, execPktParse] at h
    split at h
    · obtain ⟨hc, rfl⟩ := State.perform_next h
      refine ⟨hc, ?_⟩
      split <;> exact .answered rfl _
    · cases h
  | ocApply t4s t4f osec ousec utc =>
    simp only [exec, execOcApply] at h
    obtain ⟨hc, rfl⟩ := State.perform_next h
    refine ⟨hc, ?_⟩
    rcases s.requireInit_cases fun s =>
      (s.setTime (applyCalc ⟨t4s, t4f⟩ osec ousec utc).1 (applyCalc ⟨t4s, t4f⟩ osec ousec utc).2).respondWords
        [(applyCalc ⟨t4s, t4f⟩ osec ousec utc).1, (applyCalc ⟨t4s, t4f⟩ osec ousec utc).2] with ⟨hg, e⟩ | ⟨_, e⟩ <;>
      rw [e]
    · exact .applied _ _ rfl hg
    · exact .faulted _
  | tsSerialize sec frac =>
    simp only [exec, execTsSerialize] at h
    obtain ⟨hc, rfl⟩ := State.perform_next h
    exact ⟨hc, .answered rfl _⟩
  | cvM2f u =>
    simp only [exec, execCvM2f] at h
    obtain ⟨hc, rfl⟩ := State.perform_next h
    exact ⟨hc, .answered rfl _⟩
  | cvF2m x =>
    simp only [exec, execCvF2m] at h
    obtain ⟨hc, rfl⟩ := State.perform_next h
    exact ⟨hc, .answered rfl _⟩
  | cvToNtp wsec wusec utc =>
    simp only [exec, execCvToNtp] at h
    obtain ⟨hc, rfl⟩ := State.perform_next h
    exact ⟨hc, .answered rfl _⟩
  | ocDiff aSec aFrac bSec bFrac =>
    simp only [exec, execOcDiff] at h
    obtain ⟨hc, rfl⟩ := State.perform_next h
    exact ⟨hc, .answered rfl _⟩
  | ocOffset t1s t1f t2s t2f t3s t3f t4s t4f =>
    simp only [exec, execOcOffset] at h
    obtain ⟨hc, rfl⟩ := State.perform_next h
    exact ⟨hc, .answered rfl _⟩
  | ocApplyCalc t4s t4f osec ousec utc =>
    simp only [exec, execOcApplyCalc] at h
    obtain ⟨hc, rfl⟩ := State.perform_next h
    exact ⟨hc, .answered rfl _⟩

end Sys2Proof.Machine
end

