-- ==== Sys2Proof/Laws/Step.lean ====
section
/-! SUPPORT. Everything a step can do, said once. -/

namespace Sys2Proof.Machine

/-- Where the schedule names the next move, the step is that move on the state behind the choice. -/
theorem step_of_sched (s : State) (m : Move) (ms : List Move) :
    step { s with sched := m :: ms } = takeMove m { s with sched := ms } := rfl

/-- Where nothing has chosen, the step is a free move. -/
theorem step_of_no_sched (s : State) :
    step { s with sched := [] } = takeMove (Config.freeMove s.draws) { s with sched := [], draws := s.draws + 1 } := rfl

/-- A run takes its first step and goes on from the next state. -/
theorem run_succ_of_step {s t : State} (h : step s = .next t) (n : Nat) :
    Host.Core.run Sys2Proof.core (n + 1) s = Host.Core.run Sys2Proof.core n t := by
  have hs : Sys2Proof.core.step s = .next t := h
  simp only [Host.Core.run, hs]

/-- A step that answers a next state is one agent's move on the state behind the choice. -/
theorem step_cases {s t : State} (h : step s = .next t) :
    (s.nextMove.1 = .issue ∧ issueCommand s.nextMove.2 = .next t) ∨
    (s.nextMove.1 = .sampleS ∧ t = s.nextMove.2.sampleSeconds) ∨
    (s.nextMove.1 = .sampleT ∧ t = s.nextMove.2.sampleTicks) ∨
    (s.nextMove.1 = .complete ∧ t = s.nextMove.2.completeGetTime) ∨
    (s.nextMove.1 = .tick ∧ t = s.nextMove.2.evTick) ∨
    (s.nextMove.1 = .rollover ∧ t = s.nextMove.2.evRollover) ∨
    (s.nextMove.1 = .reset ∧ t = s.nextMove.2.evReset) := by
  unfold step at h
  cases hm : s.nextMove.1 <;> rw [hm] at h
  case issue => exact .inl ⟨rfl, h⟩
  all_goals
    simp only [takeMove, Host.Outcome.next.injEq] at h
    subst h
    simp

/-- An issue that answers a next state left the state alone, ran the decoded command, or raised Fault(1). -/
theorem issueCommand_next {s t : State} (h : issueCommand s = .next t) :
    t = s ∨
    (s.Clean ∧ ∃ c cs i, s.program = c :: cs ∧ decodeCommand c = .ok i ∧ Effect i { s with program := cs } t) ∨
    (s.Clean ∧ ∃ c cs, s.program = c :: cs ∧ decodeCommand c = .error .illegalCmd ∧
      t = { s with program := cs, fault := 1 }) := by
  rcases issueCommand_cases s with ⟨e, _⟩ | ⟨hc, c, cs, i, hp, hd, e⟩ | ⟨hc, c, cs, hp, hd, e⟩ | ⟨_, _, _, _, _, _, _, e⟩ <;>
    rw [e] at h
  · exact .inl (by simpa using h.symm)
  · exact .inr (.inl ⟨hc, c, cs, i, hp, hd, (exec_cases h).2⟩)
  · exact .inr (.inr ⟨hc, c, cs, hp, hd, by simpa using h.symm⟩)
  · cases h

end Sys2Proof.Machine
end

