-- ==== Sys2Proof/Laws/Launch.lean ====
section
/-! SUPPORT. What the run of a launch can do: it ends where it stands, or it takes one step and goes on. -/

namespace Sys2Proof.Machine

/-- A run ends at once at a fault, and where FG has nothing left to complete. -/
theorem runEnd_of_ended {left : Nat} {s : State} (h : s.fault ≠ 0 ∨ left = 0) (k : Nat) : runEnd k left s = some s := by
  cases k <;> exact if_pos h

/-- Everywhere else it goes on from the next state. -/
theorem runEnd_succ {left : Nat} {s t : State} (h : ¬ (s.fault ≠ 0 ∨ left = 0)) (hs : step s = .next t) (k : Nat) :
    runEnd (k + 1) left s = runEnd k (leftAfter left s t) t := by
  rw [runEnd, if_neg h, hs]

/-- The two ways a run ends: where it stands, or at the end of the run from the next state. -/
theorem runEnd_cases {k left : Nat} {s e : State} (h : runEnd k left s = some e) :
    (e = s ∧ (s.fault ≠ 0 ∨ left = 0)) ∨
    (s.fault = 0 ∧ left ≠ 0 ∧ ∃ j t, k = j + 1 ∧ step s = .next t ∧ runEnd j (leftAfter left s t) t = some e) := by
  by_cases hd : s.fault ≠ 0 ∨ left = 0
  · rw [runEnd_of_ended hd, Option.some.injEq] at h
    exact .inl ⟨h.symm, hd⟩
  · obtain ⟨hf, hl⟩ := not_or.mp hd
    refine .inr ⟨not_not.mp hf, hl, ?_⟩
    cases k with
    | zero => rw [runEnd, if_neg hd] at h; cases h
    | succ j =>
      rw [runEnd, if_neg hd] at h
      split at h
      · rename_i t ht; exact ⟨j, t, rfl, ht, h⟩
      · cases h
      · cases h

/-- More steps find the same end. -/
theorem runEnd_succ_of_some {k left : Nat} {s e : State} (h : runEnd k left s = some e) :
    runEnd (k + 1) left s = some e := by
  induction k generalizing left s with
  | zero =>
    rcases runEnd_cases h with ⟨rfl, hd⟩ | ⟨_, _, j, _, hj, _⟩
    · exact runEnd_of_ended hd _
    · cases hj
  | succ k ih =>
    rcases runEnd_cases h with ⟨rfl, hd⟩ | ⟨hf, hl, j, t, hj, hs, hr⟩
    · exact runEnd_of_ended hd _
    · cases hj
      rw [runEnd_succ (by simp [hf, hl]) hs]
      exact ih hr

/-- How many commands FG holds or has in flight: its program, and the MC.GET_TIME whose window is open. -/
def State.unfinished (s : State) : Nat := s.program.length + (if s.gt = .closed then 0 else 1)

/-- A step that completes a command leaves one less unfinished, and no step leaves more. -/
theorem unfinished_of_step {s t : State} (h : step s = .next t) :
    t.unfinished + (if completesCommand s t then 1 else 0) ≤ s.unfinished := by
  have hp : s.nextMove.2.program = s.program := by rw [s.nextMove_state]
  have hg : s.nextMove.2.gt = s.gt := by rw [s.nextMove_state]
  rcases step_cases h with ⟨hm, hi⟩ | ⟨hm, rfl⟩ | ⟨hm, rfl⟩ | ⟨hm, rfl⟩ | ⟨hm, rfl⟩ | ⟨hm, rfl⟩ | ⟨hm, rfl⟩ <;>
    simp only [completesCommand, hm]
  · rcases issueCommand_next hi with rfl | ⟨hc, c, cs, i, hcs, _, he⟩ | ⟨hc, c, cs, hcs, _, rfl⟩
    · simp [State.unfinished, hp, hg]
    · have hl : s.unfinished = cs.length + 1 := by simp [State.unfinished, ← hp, ← hg, hcs, hc.2]
      have hs : s.program.length = cs.length + 1 := by simp [← hp, hcs]
      rw [hl, hs]
      cases he <;> simp [State.unfinished, State.raise, hc.1, hc.2]
      split <;> simp
    · simp [State.unfinished, ← hp, ← hg, hcs, hc.2]
  · rcases s.nextMove.2.sampleSeconds_cases with e | ⟨_, _, hw, e⟩ <;> rw [e]
    · simp [State.unfinished, hp, hg]
    · simp [State.unfinished, hp, ← hg, hw]
  · rcases s.nextMove.2.sampleTicks_cases with e | ⟨_, _, hw, e⟩ <;> rw [e]
    · simp [State.unfinished, hp, hg]
    · simp [State.unfinished, hp, ← hg, hw]
  · rcases s.nextMove.2.completeGetTime_cases with e | ⟨_, _, _, hw, e⟩ <;> rw [e]
    · simp [State.unfinished, hp, hg]
    · simp [State.unfinished, hp, ← hg, hw]
  · rcases s.nextMove.2.evTick_cases with ⟨_, e⟩ | ⟨_, _, e⟩ | ⟨_, _, e⟩ <;> rw [e] <;> simp [State.unfinished, hp, hg]
  · rcases s.nextMove.2.evRollover_cases with ⟨_, e⟩ | ⟨_, e⟩ <;> rw [e] <;> simp [State.unfinished, hp, hg]
  · simp [State.unfinished, State.evReset, hp]

/-- As long as no fault is raised and no read is cut off, what FG has yet to complete is what it has unfinished. -/
theorem leftAfter_of_step {s t : State} (h : step s = .next t) (hr : s.nextMove.1 = .reset → s.gt = .closed)
    (ht : t.fault = 0) :
    leftAfter s.unfinished s t = t.unfinished := by
  have hp : s.nextMove.2.program = s.program := by rw [s.nextMove_state]
  have hg : s.nextMove.2.gt = s.gt := by rw [s.nextMove_state]
  rcases step_cases h with ⟨hm, hi⟩ | ⟨hm, rfl⟩ | ⟨hm, rfl⟩ | ⟨hm, rfl⟩ | ⟨hm, rfl⟩ | ⟨hm, rfl⟩ | ⟨hm, rfl⟩ <;>
    simp only [leftAfter, completesCommand, hm]
  · rcases issueCommand_next hi with rfl | ⟨hc, c, cs, i, hcs, _, he⟩ | ⟨hc, c, cs, hcs, _, rfl⟩
    · simp [State.unfinished, hp, hg]
    · have hl : s.unfinished = cs.length + 1 := by simp [State.unfinished, ← hp, ← hg, hcs, hc.2]
      have hs : s.program.length = cs.length + 1 := by simp [← hp, hcs]
      rw [hl, hs]
      have hf2 := hc.1
      have hg2 := hc.2
      cases he
      case faulted c => simp [State.raise, hf2] at ht; cases c <;> simp [faultCode] at ht
      all_goals simp [State.unfinished, hf2, hg2]
    · simp at ht
  · rcases s.nextMove.2.sampleSeconds_cases with e | ⟨_, _, hw, e⟩ <;> rw [e]
    · simp [State.unfinished, hp, hg]
    · simp [State.unfinished, hp, ← hg, hw]
  · rcases s.nextMove.2.sampleTicks_cases with e | ⟨_, _, hw, e⟩ <;> rw [e]
    · simp [State.unfinished, hp, hg]
    · simp [State.unfinished, hp, ← hg, hw]
  · rcases s.nextMove.2.completeGetTime_cases with e | ⟨_, _, _, hw, e⟩ <;> rw [e]
    · simp [State.unfinished, hp, hg]
    · simp [State.unfinished, hp, ← hg, hw]
  · rcases s.nextMove.2.evTick_cases with ⟨_, e⟩ | ⟨_, _, e⟩ | ⟨_, _, e⟩ <;> rw [e] <;> simp [State.unfinished, hp, hg]
  · rcases s.nextMove.2.evRollover_cases with ⟨_, e⟩ | ⟨_, e⟩ <;> rw [e] <;> simp [State.unfinished, hp, hg]
  · simp [State.unfinished, State.evReset, hp, hr hm]

/-- Where FG has nothing unfinished, nothing more completes and no fault is raised. -/
theorem step_of_unfinished_zero {s t : State} (h : step s = .next t) (hu : s.unfinished = 0) (hf : s.fault = 0) :
    t.unfinished = 0 ∧ t.fault = 0 ∧ completesCommand s t = false := by
  have hn := unfinished_of_step h
  have hp : s.nextMove.2.program = s.program := by rw [s.nextMove_state]
  have h2 : s.nextMove.2.fault = 0 := by rw [s.nextMove_state]; exact hf
  have h0 : s.program = [] := by
    have : s.program.length = 0 := by unfold State.unfinished at hu; omega
    exact List.eq_nil_of_length_eq_zero this
  refine ⟨by omega, ?_, by cases hc : completesCommand s t <;> simp_all⟩
  rcases step_cases h with ⟨_, hi⟩ | ⟨_, rfl⟩ | ⟨_, rfl⟩ | ⟨_, rfl⟩ | ⟨_, rfl⟩ | ⟨_, rfl⟩ | ⟨_, rfl⟩
  · rcases issueCommand_next hi with rfl | ⟨_, c, cs, i, hcs, _⟩ | ⟨_, c, cs, hcs, _⟩
    · exact h2
    · simp [hp, h0] at hcs
    · simp [hp, h0] at hcs
  · rcases s.nextMove.2.sampleSeconds_cases with e | ⟨_, _, _, e⟩ <;> rw [e] <;> exact h2
  · rcases s.nextMove.2.sampleTicks_cases with e | ⟨_, _, _, e⟩ <;> rw [e] <;> exact h2
  · rcases s.nextMove.2.completeGetTime_cases with e | ⟨_, _, _, _, e⟩ <;> rw [e] <;> exact h2
  · rcases s.nextMove.2.evTick_cases with ⟨_, e⟩ | ⟨_, _, e⟩ | ⟨_, _, e⟩ <;> rw [e] <;> exact h2
  · rcases s.nextMove.2.evRollover_cases with ⟨_, e⟩ | ⟨_, e⟩ <;> rw [e] <;> exact h2
  · rfl

end Sys2Proof.Machine
end

