-- ==== Sys2Proof/Laws/PerInstr.lean ====
section
/-! SUPPORT. What holds of every instruction as syntax, one lemma per constructor. -/

namespace Sys2Proof.Laws.CommandWord

/-- The command word of every instruction is legal: RSV is 0 and the OPC is in the table (30_encoding.md R70, R74,
R76). -/
def Statement (i : Instr) : Prop :=
  rsvField (commandWord i) = 0 ∧
    (opcField (commandWord i)).toNat ∈ [0x01, 0x02, 0x03, 0x04, 0x10, 0x11, 0x12, 0x20, 0x21, 0x22, 0x30, 0x31, 0x32, 0x33]

theorem mcInit : Statement .mcInit := by unfold Statement; decide
theorem mcGetTime : Statement .mcGetTime := by unfold Statement; decide
theorem mcSetTime (sec usec : Word) : Statement (.mcSetTime sec usec) := by simp only [Statement, commandWord]; decide
theorem mcNowSeconds : Statement .mcNowSeconds := by unfold Statement; decide
theorem tsParse (ts : List Byte) : Statement (.tsParse ts) := by simp only [Statement, commandWord]; decide
theorem tsSerialize (sec frac : Word) : Statement (.tsSerialize sec frac) := by
  simp only [Statement, commandWord]; decide
theorem pktParse (n : Word) (p : List Byte) : Statement (.pktParse n p) := by
  simp only [Statement, commandWord]; decide
theorem cvM2f (u : Word) : Statement (.cvM2f u) := by simp only [Statement, commandWord]; decide
theorem cvF2m (x : Word) : Statement (.cvF2m x) := by simp only [Statement, commandWord]; decide
theorem cvToNtp (wsec wusec utc : Word) : Statement (.cvToNtp wsec wusec utc) := by
  simp only [Statement, commandWord]; decide
theorem ocDiff (aSec aFrac bSec bFrac : Word) : Statement (.ocDiff aSec aFrac bSec bFrac) := by
  simp only [Statement, commandWord]; decide
theorem ocOffset (t1s t1f t2s t2f t3s t3f t4s t4f : Word) :
    Statement (.ocOffset t1s t1f t2s t2f t3s t3f t4s t4f) := by
  simp only [Statement, commandWord]; decide
theorem ocApplyCalc (t4s t4f osec ousec utc : Word) : Statement (.ocApplyCalc t4s t4f osec ousec utc) := by
  simp only [Statement, commandWord]; decide
theorem ocApply (t4s t4f osec ousec utc : Word) : Statement (.ocApply t4s t4f osec ousec utc) := by
  simp only [Statement, commandWord]; decide

end Sys2Proof.Laws.CommandWord
end

