-- ==== Sys2Proof/Tests/Slice0.lean ====
section
/-! SUPPORT. Small tests with values from the spec's text and its test vectors (95_test_vectors.md), and for each
statement with hypotheses a witness that they can be met together. -/

namespace Sys2Proof.Tests
open Sys2Proof.Machine

/-- Just after EV.RESET, with SECONDS = 7 and TICKS = 3 (95_test_vectors.md 2.1). -/
def fresh : State where
  seconds := 7
  ticks := 3
  ten := false
  ien := false
  rpend := false
  cfg := false
  gt := .closed
  fault := 0
  ovr := false
  program := []
  results := []
  sched := []
  draws := 1

/-- After MC.INIT and MC.SET_TIME 1000, 123456 (95_test_vectors.md 2.1). -/
def booted : State := { fresh with seconds := 1000, ticks := 1234, ten := true, ien := true, cfg := true }

/-- One step of the agent `m` from `s`. -/
def move (m : Move) (s : State) : Result := step { s with sched := [m] }

/-- Packet P of 95_test_vectors.md 2.2. -/
def packetP : List Byte :=
  [0x24, 0x02, 0x0A, 0xEC, 0x00, 0x00, 0x01, 0x00, 0x00, 0x00, 0x02, 0x00, 0x0A, 0x0B, 0x0C, 0x0D] ++
  [0x00, 0x00, 0x00, 0x64, 0x00, 0x00, 0x00, 0x00, 0x00, 0x00, 0x00, 0x64, 0x00, 0x00, 0x00, 0x00] ++
  [0x00, 0x00, 0x00, 0x69, 0x00, 0x00, 0x00, 0x00, 0x00, 0x00, 0x00, 0x69, 0x80, 0x00, 0x00, 0x00]

/-! ### Well-formedness -/

/-- `W n, B[n] p`: 47 bytes are no B[48] (30_encoding.md R71). -/
theorem test_wellFormed_refuses_short_packet :
    (Instr.pktParse 48 (List.replicate 47 0)).wellFormed = false := by decide
/-- Nor are 49. -/
theorem test_wellFormed_refuses_long_packet :
    (Instr.pktParse 48 (List.replicate 49 0)).wellFormed = false := by decide
theorem test_wellFormed_accepts_any_matching_length :
    (Instr.pktParse 47 (List.replicate 47 0)).wellFormed = true := by decide

/-! ### Parameters (00_scope.md R8) -/

theorem test_parameters :
    Config.ticksPerSecond.toNat = 10000 ∧ Config.usPerTick.toNat = 100 ∧ Config.usPerSecond.toNat = 1000000 ∧
      Config.ntpUnixDelta = 0x83AA7E80 ∧ Config.tsBytes = 8 ∧ Config.pktBytes.toNat = 48 := by decide

/-! ### Decoding: words of 30_encoding.md R74, bits 7:0 the OPC, bits 31:8 zero -/

theorem test_decode_mcInit : decode [.word 0b00000000000000000000000000000001] = .ok (.mcInit, []) := rfl
theorem test_decode_mcGetTime : decode [.word 0b00000000000000000000000000000010] = .ok (.mcGetTime, []) := rfl
/-- 95_test_vectors.md 3.1, line 2. -/
theorem test_decode_mcSetTime :
    decode [.word 0b00000000000000000000000000000011, .word 0x000003E8, .word 0x0001E240] =
      .ok (.mcSetTime 1000 123456, []) := rfl
theorem test_decode_mcNowSeconds :
    decode [.word 0b00000000000000000000000000000100] = .ok (.mcNowSeconds, []) := rfl
theorem test_decode_tsParse :
    decode [.word 0b00000000000000000000000000010000, .bytes [1, 2, 3, 4, 5, 6, 7, 8]] =
      .ok (.tsParse [1, 2, 3, 4, 5, 6, 7, 8], []) := rfl
/-- 95_test_vectors.md 3.5, line 6. -/
theorem test_decode_tsSerialize :
    decode [.word 0b00000000000000000000000000010001, .word 0xFFFFFFFF, .word 0] =
      .ok (.tsSerialize 0xFFFFFFFF 0, []) := rfl
/-- 95_test_vectors.md 3.2, line 4. -/
theorem test_decode_pktParse :
    decode [.word 0b00000000000000000000000000010010, .word 0x30, .bytes packetP] = .ok (.pktParse 48 packetP, []) := rfl
theorem test_decode_cvM2f :
    decode [.word 0b00000000000000000000000000100000, .word 123400] = .ok (.cvM2f 123400, []) := rfl
/-- 95_test_vectors.md 3.5, line 3. -/
theorem test_decode_cvF2m :
    decode [.word 0b00000000000000000000000000100001, .word 0xBFFFFFFF] = .ok (.cvF2m 0xBFFFFFFF, []) := rfl
/-- 95_test_vectors.md 3.2, line 2. -/
theorem test_decode_cvToNtp :
    decode [.word 0b00000000000000000000000000100010, .word 0x7C5581E4, .word 1, .word 2] =
      .ok (.cvToNtp 2085978596 1 2, []) := rfl
/-- 95_test_vectors.md 3.5, line 2. -/
theorem test_decode_ocDiff :
    decode [.word 0b00000000000000000000000000110000, .word 0x64, .word 0x80000000, .word 0x65, .word 0x40000000] =
      .ok (.ocDiff 100 0x80000000 101 0x40000000, []) := rfl
theorem test_decode_ocOffset :
    decode [.word 0b00000000000000000000000000110001, .word 1, .word 2, .word 3, .word 4, .word 5, .word 6, .word 7,
      .word 8] = .ok (.ocOffset 1 2 3 4 5 6 7 8, []) := rfl
theorem test_decode_ocApplyCalc :
    decode [.word 0b00000000000000000000000000110010, .word 1, .word 2, .word 3, .word 4, .word 5] =
      .ok (.ocApplyCalc 1 2 3 4 5, []) := rfl
/-- 95_test_vectors.md 3.2, line 7. -/
theorem test_decode_ocApply :
    decode [.word 0b00000000000000000000000000110011, .word 0x6E, .word 0, .word 0, .word 0x0003D090, .word 0] =
      .ok (.ocApply 110 0 0 250000 0, []) := rfl
/-- 95_test_vectors.md 2.7: OPC not in the table, or RSV not 0, whatever follows (30_encoding.md R76). -/
theorem test_decode_illegal :
    decode [.word 0x00000000] = .error .illegalCmd ∧ decode [.word 0x00000005] = .error .illegalCmd ∧
    decode [.word 0x00000013] = .error .illegalCmd ∧ decode [.word 0x000000FF] = .error .illegalCmd ∧
    decode [.word 0x80000030, .word 1] = .error .illegalCmd ∧ decode [.word 0x00000101] = .error .illegalCmd ∧
    decode [.word 0x00000110, .bytes [1, 2, 3, 4, 5, 6, 7]] = .error .illegalCmd :=
  ⟨rfl, rfl, rfl, rfl, rfl, rfl, rfl⟩
/-- The opcode table's rows, operands zero. -/
theorem test_decodeTableWord :
    decodeTableWord 32 0x03 = some (.mcSetTime 0 0) ∧ decodeTableWord 32 0x12 = some (.pktParse 0 []) ∧
    decodeTableWord 32 0x10 = some (.tsParse [0, 0, 0, 0, 0, 0, 0, 0]) ∧ decodeTableWord 32 0x34 = none := by decide
/-- A placed word is the one the next step runs (log entry 6). -/
theorem test_withFetchWord_runs : step (fresh.withFetchWord 32 0x21) = .next { fresh with results := [.word 0] } := rfl

/-! ### The clock (40_clock.md; 95_test_vectors.md 2.1) -/

theorem test_init_keeps_counters :
    exec .mcInit fresh = .next { fresh with cfg := true, ten := true, ien := true } := rfl
theorem test_second_init_faults : exec .mcInit booted = .next { booted with fault := 3 } := rfl
theorem test_setTime_wraps_ticks :
    exec (.mcSetTime 1000 0xFFFFFFFF) { booted with rpend := true } =
      .next { booted with seconds := 1000, ticks := 9672, rpend := false } := rfl
theorem test_setTime_carries_nothing :
    exec (.mcSetTime 1000 1000050) booted = .next { booted with seconds := 1000, ticks := 0 } := rfl
theorem test_setTime_before_init_faults : exec (.mcSetTime 5 0) fresh = .next { fresh with fault := 2 } := rfl
theorem test_nowSeconds_pending_returns_old :
    exec .mcNowSeconds { booted with seconds := 5, rpend := true } =
      .next { booted with seconds := 5, rpend := true, results := [.word 5] } := rfl
theorem test_getTime_opens : exec .mcGetTime booted = .next { booted with gt := .opened none none } := rfl
theorem test_getTime_before_init_faults : exec .mcGetTime fresh = .next { fresh with fault := 2 } := rfl
theorem test_sampleT_reads_ticks :
    move .sampleT { booted with gt := .opened none none } =
      .next { booted with gt := .opened none (some 1234) } := rfl
theorem test_complete_returns_microseconds :
    move .complete { booted with gt := .opened (some 1000) (some 1234) } =
      .next { booted with results := [.word 1000, .word 123400] } := rfl
theorem test_tick_rolls_over :
    move .tick { booted with ticks := 9999 } = .next { booted with ticks := 0, rpend := true } := rfl
theorem test_tick_overrun :
    move .tick { booted with ticks := 9999, rpend := true } =
      .next { booted with ticks := 0, rpend := true, ovr := true } := rfl
theorem test_rollover_wraps :
    move .rollover { booted with seconds := 0xFFFFFFFF, rpend := true } = .next { booted with seconds := 0 } := rfl
theorem test_rollover_not_pending : move .rollover booted = .next booted := rfl
/-- 95_test_vectors.md 2.7: FAULT = 1, TEN = 1, TICKS = 9999, no step is enabled. -/
theorem test_fault_is_quiescent :
    move .tick { booted with fault := 1, ticks := 9999 } = .next { booted with fault := 1, ticks := 9999 } := rfl
/-- 95_test_vectors.md 2.7: MC.INIT with RSV = 1 is Fault(1), not Fault(3). -/
theorem test_illegal_before_doubleInit :
    step { booted with program := [⟨0x00000101, []⟩], sched := [.issue] } = .next { booted with fault := 1 } := rfl

/-! ### Wire parsing (41_wire.md; 95_test_vectors.md 2.2) -/

theorem test_tsParse_first_byte_most_significant :
    exec (.tsParse [0x01, 0x02, 0x03, 0x04, 0x05, 0x06, 0x07, 0x08]) fresh =
      .next { fresh with results := [.word 0x01020304, .word 0x05060708] } := rfl
theorem test_tsParse_nine_bytes_fault :
    exec (.tsParse (List.replicate 9 0)) fresh = .next { fresh with fault := 4 } := rfl
theorem test_tsSerialize :
    exec (.tsSerialize 0x83AA7E80 1) fresh =
      .next { fresh with results := [.bytes [0x83, 0xAA, 0x7E, 0x80, 0x00, 0x00, 0x00, 0x01]] } := rfl
theorem test_pktParse_packetP :
    exec (.pktParse 48 packetP) fresh =
      .next (fresh.respondWords
        [1, 0x24, 2, 10, 0xEC, 0x100, 0x200, 0x0A0B0C0D, 100, 0, 100, 0, 105, 0, 105, 0x80000000]) := rfl
theorem test_pktParse_other_size :
    exec (.pktParse 49 (List.replicate 49 0)) fresh = .next { fresh with results := [.word 0] } := rfl

/-! ### Conversions (43_fixedpoint.md; 95_test_vectors.md 2.6) -/

theorem test_m2f_wraps : exec (.cvM2f 1475427) fresh = .next { fresh with results := [.word 0x79B59568] } := rfl
theorem test_m2f_top : m2f 0xFFFFFFFF = 0x001FEF48 ∧ m2f 999999 = 0xFFFFEF38 ∧ m2f 1000000 = 0xFFFFFFFF := by decide
theorem test_f2m_falls : f2m 0x01FFFFFF = 8191 ∧ f2m 0x02000000 = 7433 := by decide
theorem test_f2m_top : exec (.cvF2m 0xFFFFFFFF) fresh = .next { fresh with results := [.word 999999] } := rfl
theorem test_toNtp :
    exec (.cvToNtp 1000 123400 3600) fresh = .next { fresh with results := [.word 0x83AA7458, .word 0x1F972473] } := rfl
theorem test_toNtp_wraps :
    exec (.cvToNtp 0xFFFFFFFF 0 0) fresh = .next { fresh with results := [.word 0x83AA7E7F, .word 0] } := rfl

/-! ### Offset arithmetic (42_offset.md; 95_test_vectors.md 2.3 to 2.5) -/

theorem test_diff_borrow :
    exec (.ocDiff 5 1 5 0) fresh = .next { fresh with results := [.word 0xFFFFFFFF, .word 0xFFFFFFFE] } := rfl
theorem test_diff_equal_fractions :
    exec (.ocDiff 7 5 7 5) fresh = .next { fresh with results := [.word 0, .word 0] } := rfl
theorem test_offset_carries :
    exec (.ocOffset 100 0x80000000 101 0x40000000 101 0x40000000 100 0x80000000) fresh =
      .next { fresh with results := [.word 0, .word 249999] } := rfl
/-- The i32 sum wraps to -2. -/
theorem test_offset_sum_wraps :
    exec (.ocOffset 0 0 0x7FFFFFFF 0 0x7FFFFFFF 0 0 0) fresh =
      .next { fresh with results := [.word 0xFFFFFFFF, .word 0] } := rfl
theorem test_applyCalc_normalises :
    exec (.ocApplyCalc 0xE0000000 0xFFFFFFFF 5 499999 0) fresh =
      .next { fresh with results := [.word 1549107590, .word 499998] } := rfl
theorem test_applyCalc_once :
    exec (.ocApplyCalc 110 0 0 2000000 0) fresh =
      .next { fresh with results := [.word 2085978607, .word 1000000] } := rfl
theorem test_apply_sets_clock :
    exec (.ocApply 0x83AA8268 0x80000000 0xFFFFFFFF 250000 0xFFFFF1F0) { booted with rpend := true } =
      .next { booted with seconds := 4294964695, ticks := 7500, results := [.word 4294964695, .word 750000] } := rfl
theorem test_apply_before_init_faults :
    exec (.ocApply 110 0 0 250000 0) fresh = .next { fresh with fault := 2 } := rfl

/-! ### FG's programs (30_encoding.md R77) -/

/-- "A negative decimal word `-k` stands for `u32(-k)`". -/
theorem test_asm_negative : asmItem [] (.dec (-3600)) = some (.word 0xFFFFF1F0) := rfl
/-- 95_test_vectors.md 2.3 in the syntax of R77, with a comment. -/
theorem test_asm_line :
    linesOfText "OC.DIFF 110, 0, -3, 0x80000000 -> sec, frac ; borrow" =
      some [⟨0x30, [.dec 110, .dec 0, .dec (-3), .hex 0x80000000], ["sec", "frac"]⟩] := rfl
/-- A byte array operand (95_test_vectors.md 3.5, line 1). -/
theorem test_asm_bytes :
    linesOfText "TS.PARSE [0x00,0x00,0x00,0x64,0x80,0x00,0x00,0x00]" =
      some [⟨0x10, [.bytes [0x00, 0x00, 0x00, 0x64, 0x80, 0x00, 0x00, 0x00]], []⟩] := rfl
theorem test_asm_pseudo :
    linesOfText "CAPTURE_NTP 0 -> s, f" = some (captureNtp (.dec 0) "s" "f") ∧
    linesOfText "; only a comment" = some [] ∧ linesOfText "MC.INIT" = some [⟨0x01, [], []⟩] ∧
    linesOfText "MC.HALT" = none := ⟨rfl, rfl, rfl, rfl⟩
/-- 95_test_vectors.md 3.2, line 2: no result names. -/
theorem test_asm_pseudo_without_names :
    linesOfText "CAPTURE_NTP 0" =
      some [⟨0x02, [], ["ws", "wus"]⟩, ⟨0x22, [.name "ws", .name "wus", .dec 0], []⟩] ∧
    linesOfText "CAPTURE_NTP" = none := ⟨rfl, rfl⟩
theorem test_asm_unbound_name : asmItem [] (.name "ws") = none := rfl

/-! ### Witnesses: the hypotheses of each statement met together -/

theorem witness_AfterResetTimerAndServiceAreOff : fresh.AfterReset ∧ { fresh with ticks := 9999 }.AfterReset := by
  decide
theorem witness_InitConfiguresAndStarts : (fresh.Clean ∧ fresh.cfg = false) ∧ (booted.Clean ∧ booted.cfg = true) := by
  decide
theorem witness_TickAdvancesOrRollsOver :
    (let s := { booted with ticks := 9999 }
     s.fault = 0 ∧ s.ten = true ∧ s.cfg = true ∧ s.ticks.toNat = 9999) ∧
    (let s := { booted with ticks := 9998 }
     s.fault = 0 ∧ s.ten = true ∧ s.cfg = true ∧ s.ticks.toNat ≠ 9999) := by decide
theorem witness_RolloverServiceAddsOneSecond :
    let s := { booted with rpend := true, seconds := 0xFFFFFFFF }
    s.fault = 0 ∧ s.ien = true ∧ s.rpend = true := by decide
/-- Each clause by each of its ways: a fault, a disabled timer or interrupt, a window that is closed or filled. -/
theorem witness_MovesNotEnabledChangeNothing :
    { booted with fault := 1 }.fault ≠ 0 ∧ fresh.ten = false ∧ fresh.cfg = false ∧ fresh.ien = false ∧
    booted.rpend = false ∧ (∀ b, booted.gt ≠ .opened none b) ∧ (∀ a, booted.gt ≠ .opened a none) ∧
    (∀ a b, { booted with gt := .opened none (some 1) }.gt ≠ .opened (some a) (some b)) := by
  refine ⟨by decide, rfl, rfl, rfl, rfl, ?_, ?_, ?_⟩ <;> intros <;> simp [booted, fresh]
/-- The issue's three ways: a fault, an open window, no command left. -/
theorem witness_MovesNotEnabledChangeNothing_issue :
    { booted with fault := 1 }.fault ≠ 0 ∧ { booted with gt := .opened none none }.gt ≠ .closed ∧ booted.program = [] := by
  decide
theorem witness_GetTimeOpensWindow : (booted.Clean ∧ booted.cfg = true) ∧ (fresh.Clean ∧ fresh.cfg = false) := by decide
theorem witness_SamplesFillEmptySlots : booted.fault = 0 := by decide
theorem witness_CompletionReturnsSampledTime :
    booted.fault = 0 ∧ (9999 : Word).toNat ≤ 9999 ∧ (0 : Word).toNat ≤ 9999 := by decide
theorem witness_SetTimeOverwritesClock : (booted.Clean ∧ booted.cfg = true) ∧ (fresh.Clean ∧ fresh.cfg = false) := by
  decide
theorem witness_NowSecondsReturnsSeconds : (booted.Clean ∧ booted.cfg = true) ∧ (fresh.Clean ∧ fresh.cfg = false) := by
  decide
theorem witness_UninitialisedClockCommandsFault :
    fresh.Clean ∧ fresh.cfg = false ∧ setsClock (.mcSetTime 5 0) = true ∧ setsClock (.ocApply 110 0 0 250000 0) = true := by
  decide
theorem witness_GetTimeReturnsTimeJustSet :
    booted.Clean ∧ booted.cfg = true ∧ (999999 : Word).toNat ≤ 999999 ∧ ¬ (1000000 : Word).toNat ≤ 999999 := by decide
theorem witness_StraddlingReadsMissByOneSecond :
    let s := { booted with ticks := 9999 }
    s.Booted ∧ s.Quiet ∧ s.ticks = 9999 := by decide
/-- The second part, at each form of the window: both samples before the rollover, between it and the service, after. -/
theorem witness_StraddlingReadsMissByOneSecond_anyWindow :
    let s := { booted with ticks := 9998 }
    s.Booted ∧ s.Quiet ∧ s.ticks.toNat + [Move.tick, .sampleS, .sampleT].count .tick = 9999 ∧
      s.ticks.toNat + [Move.tick].count .tick = 9999 ∧
      [Move.sampleT, .tick, .sampleS].count .tick + ([] : List Move).count .tick ≤ 9999 ∧
      .rollover ∉ [Move.sampleT, .tick, .sampleS] ∧
      (∀ m ∈ [Move.tick] ++ .tick :: ([Move.sampleT, .tick, .sampleS] ++ [.rollover]), m ≠ .complete ∧ m ≠ .reset) ∧
      (∀ m ∈ [Move.tick] ++ .tick :: ([Move.issue] ++ .rollover :: [.sampleS, .rollover, .sampleT]),
        m ≠ .complete ∧ m ≠ .reset) := by decide
theorem witness_SecondsCountRolloversWithoutLoss :
    let s := { booted with ticks := 9999 }
    s.Booted ∧ s.ticks.toNat ≤ 9999 ∧ ∀ m ∈ [Move.tick, .rollover, .tick], m = .tick ∨ m = .rollover := by decide
/-- The premise of its last clause: no rollover was lost at the end. -/
theorem witness_SecondsCountRolloversWithoutLoss_noLoss :
    Host.Core.run Sys2Proof.core 3 { booted with ticks := 9999, sched := [.tick, .rollover, .tick] } =
      .next { booted with seconds := 1001, ticks := 1 } := rfl
/-- A rollover with none pending, and one that is lost. -/
theorem witness_EveryUnlostRolloverAddsOneSecond_rollover :
    let s := { booted with ticks := 9999, sched := [.tick] }
    let t := { booted with ticks := 0, rpend := true }
    (step s = .next t ∧ t.ovr = false ∧ s.nextMove.1 = .tick ∧ s.tickEnabled ∧ s.ticks = 9999) ∧
    step { s with rpend := true } = .next { t with ovr := true } := ⟨⟨rfl, rfl, rfl, by decide, rfl⟩, rfl⟩
/-- A step that is no rollover: FG issues a command that writes no clock. -/
theorem witness_EveryUnlostRolloverAddsOneSecond_issue :
    let s := { booted with program := [⟨0x04, []⟩], sched := [.issue] }
    step s = .next { booted with results := [.word 1000] } ∧ s.nextMove.1 = .issue ∧ s.Clean ∧
      decodeCommand ⟨0x04, []⟩ = .ok .mcNowSeconds ∧ setsClock .mcNowSeconds = false :=
  ⟨rfl, rfl, by decide, rfl, rfl⟩
theorem witness_DelayedServiceLosesOneSecond :
    let s := { booted with ticks := 9999, rpend := true }
    s.Booted ∧ s.ticks.toNat ≤ 9999 ∧ s.rpend = true := by decide
theorem witness_TsParseReadsBigEndian :
    fresh.Clean ∧ ([1, 2, 3, 4, 5, 6, 7] : List Byte).length ≠ 8 ∧ (List.replicate 9 (0 : Byte)).length ≠ 8 := by decide
theorem witness_TsSerializeInvertsParse : fresh.Clean ∧ ([1, 2, 3, 4, 5, 6, 7, 8] : List Byte).length = 8 := by decide
theorem witness_PktParseReturnsEveryField :
    fresh.Clean ∧ ((List.replicate 47 (0 : Byte)).length = (47 : Word).toNat ∧ (47 : Word).toNat ≠ 48) ∧
      ((List.replicate 49 (0 : Byte)).length = (49 : Word).toNat ∧ (49 : Word).toNat ≠ 48) ∧
      (packetP.length = (48 : Word).toNat ∧ (48 : Word).toNat = 48) := by decide
/-- For the statements about a computing command whose one hypothesis is a state in which FG may issue:
MicrosToFractionFormula, FractionToMicrosFormula, ToNtpShiftsEpoch, DiffIsExactOrOneUnitLow, OffsetCarriesAtMostOnce,
OffsetHalvingDropsHalfSecond. -/
theorem witness_computing_commands_clean : fresh.Clean ∧ booted.Clean := by decide
theorem witness_MicrosToFractionIsFloorOrOneLess :
    (999999 : Word).toNat ≤ 999999 ∧ (0 : Word).toNat ≤ 999999 := by decide
theorem witness_FractionToMicrosFallsAtSixtyFourPoints :
    ((0x02000000 : Word).toNat = (0x01FFFFFF : Word).toNat + 1 ∧ (0x02000000 : Word).toNat + 2 ^ 25 = 2 ^ 26 * 1) ∧
    ((0xFE000000 : Word).toNat = (0xFDFFFFFF : Word).toNat + 1 ∧ (0xFE000000 : Word).toNat + 2 ^ 25 = 2 ^ 26 * 64) ∧
    ((1 : Word).toNat = (0 : Word).toNat + 1 ∧ ∀ k : Nat, (1 : Word).toNat + 2 ^ 25 ≠ 2 ^ 26 * k) := by
  refine ⟨by decide, by decide, by decide, fun k h => ?_⟩
  have h' : 1 + 33554432 = 67108864 * k := h
  omega
theorem witness_RoundTripErrorIsBounded :
    (999999 : Word).toNat ≤ 999999 ∧ ((999900 : Word).toNat ≤ 999999 ∧ (999900 : Word).toNat % 100 = 0) ∧
      (41 : Word).toNat < 42 := by decide
theorem witness_DiffUsesBorrowRepresentation :
    fresh.Clean ∧ (5 : Word).toNat ≤ (5 : Word).toNat ∧ (0 : Word).toNat < (1 : Word).toNat := by decide
theorem witness_OffsetHalvesCarriedSums :
    fresh.Clean ∧ (f2m 0x80000000).toNat + (f2m 0x80000000).toNat = 1000000 ∧
      (f2m 0xFFFFFFFF).toNat + (f2m 0).toNat = 999999 := by decide
theorem witness_ApplyCalcNormalisesOnce :
    fresh.Clean ∧ (f2m 0xFFFFFFFF + 0).toNat < 1000000 ∧ 1000000 ≤ (f2m 0xFFFFFFFF + 1).toNat ∧
      (499999 : Word).toNat ≤ 499999 := by decide
theorem witness_ApplySetsClockInOneStep : (booted.Clean ∧ booted.cfg = true) ∧ (fresh.Clean ∧ fresh.cfg = false) := by
  decide
theorem witness_ApplyInvertsToNtp : fresh.Clean ∧ (999999 : Word).toNat ≤ 999999 := by decide
theorem witness_IllegalCommandRaisesFaultOne :
    fresh.Clean ∧ (0x00000101 : Word).toNat / 256 ≠ 0 ∧
      (0x00000034 : Word).toNat % 256 ∉
        [0x01, 0x02, 0x03, 0x04, 0x10, 0x11, 0x12, 0x20, 0x21, 0x22, 0x30, 0x31, 0x32, 0x33] := by decide
theorem witness_TableWordsAreNeverIllegal :
    (0x00000033 : Word).toNat ∈
      [0x01, 0x02, 0x03, 0x04, 0x10, 0x11, 0x12, 0x20, 0x21, 0x22, 0x30, 0x31, 0x32, 0x33] := by decide
theorem witness_DecodeInvertsEncode : (Instr.pktParse 48 packetP).wellFormed = true := by decide
theorem witness_EncodeInvertsDecode :
    decode [.word 0x12, .word 0, .bytes [], .word 7] = .ok (.pktParse 0 [], [.word 7]) := rfl
theorem witness_StepIssuesDecodedCommand : booted.Clean ∧ decodeCommand ⟨0x04, []⟩ = .ok .mcNowSeconds := ⟨by decide, rfl⟩
theorem witness_PlacedWordRunsNext : fresh.Clean ∧ decodeTableWord 32 0x30 = some (.ocDiff 0 0 0 0) := by decide
theorem witness_CleanStatesCompleteEveryCommand :
    (Instr.pktParse 48 packetP).wellFormed = true ∧ fresh.Clean := by decide
theorem witness_CommandsStopWhereNoneMayIssue :
    (Instr.mcInit.wellFormed = true ∧ { fresh with fault := 4 }.fault ≠ 0) ∧
    (let s := { booted with gt := .opened none (some 1) }
     s.fault = 0 ∧ s.gt = .opened none (some 1)) := by decide
theorem witness_FaultStateIsQuiescent :
    let s := { booted with fault := 1, sched := [.tick] }
    s.fault ≠ 0 ∧ s.nextMove.1 ≠ .reset := by decide
theorem witness_EveryStepKeepsInvariant :
    { booted with ticks := 9999 }.Inv ∧
      move .tick { booted with ticks := 9999 } = .next { booted with ticks := 0, rpend := true } := ⟨by decide, rfl⟩
theorem witness_OnlyServiceAndSetTimeWriteSeconds :
    move .rollover { booted with rpend := true } = .next { booted with seconds := 1001 } ∧
      { booted with seconds := 1001 }.seconds ≠ booted.seconds := ⟨rfl, by decide⟩
theorem witness_OnlyInitAndResetWriteCfg :
    let s := { fresh with program := [⟨0x01, []⟩], sched := [.issue] }
    let t := { fresh with cfg := true, ten := true, ien := true }
    step s = .next t ∧ s.nextMove.1 ≠ .reset ∧ t.cfg ≠ s.cfg := ⟨rfl, by decide, by decide⟩
/-- Its second clause: an illegal command changes FAULT. -/
theorem witness_OnlyInitAndResetWriteCfg_fault :
    let s := { fresh with program := [⟨0x00, []⟩], sched := [.issue] }
    let t := { fresh with fault := 1 }
    step s = .next t ∧ s.nextMove.1 ≠ .reset ∧ t.fault ≠ s.fault := ⟨rfl, by decide, by decide⟩
theorem witness_OnlyTickSetsPending :
    (move .tick { booted with ticks := 9999 } = .next { booted with ticks := 0, rpend := true } ∧
      booted.rpend = false) ∧
    (move .rollover { booted with rpend := true } = .next { booted with seconds := 1001 } ∧
      { booted with seconds := 1001 }.rpend = false) := ⟨⟨rfl, rfl⟩, rfl, rfl⟩
theorem witness_ComputingCommandsArePure :
    (isPure (.tsParse [1]) = true ∧ (Instr.tsParse [1]).wellFormed = true ∧ fresh.Clean) ∧
      isPure (.ocDiff 1 2 3 4) = true := by decide
theorem witness_ClockCommandsFrame :
    exec .mcInit fresh = .next { fresh with cfg := true, ten := true, ien := true } ∧
    exec .mcGetTime booted = .next { booted with gt := .opened none none } ∧
    exec .mcNowSeconds booted = .next { booted with results := [.word 1000] } ∧
    exec (.mcSetTime 1000 123456) booted = .next booted := ⟨rfl, rfl, rfl, rfl⟩
theorem witness_GhostBitChangesNoBehaviour :
    move .tick booted = .next { booted with ticks := 1235 } ∧
    step { booted with program := [⟨0x03, []⟩], sched := [.issue] } = .refused .malformedCommand := ⟨rfl, rfl⟩

/-- A run that ends with its one read completed, and one that ends at a fault. -/
theorem witness_RunEndsAtLastCompletionOrFirstFault :
    (let s := { booted with program := [⟨0x02, []⟩], sched := [.issue, .sampleT, .sampleS, .complete] }
     s.Clean ∧ s.EndsWithin 4 { booted with results := [.word 1000, .word 123400] }) ∧
    (let s := { fresh with program := [⟨0x02, []⟩], sched := [.issue] }
     s.Clean ∧ s.EndsWithin 1 { fresh with fault := 2 }) := ⟨⟨by decide, rfl⟩, by decide, rfl⟩
/-- Its second part: the same run by plain steps, an EV.RESET with no window open on the way. -/
theorem witness_RunEndsAtLastCompletionOrFirstFault_ends :
    let s := { booted with program := [⟨0x04, []⟩], sched := [.issue] }
    s.Clean ∧ Host.Core.run Sys2Proof.core 1 s = .next { booted with results := [.word 1000] } ∧
      s.nextMove.1 ≠ .reset ∧ { s with sched := [.reset] }.nextMove.1 = .reset ∧ s.gt = .closed :=
  ⟨by decide, rfl, by decide, rfl, rfl⟩
/-- Its third part: a window open in a state without a fault and with no command left. -/
theorem witness_RunEndsAtLastCompletionOrFirstFault_cutOff :
    let s := { booted with gt := .opened (some 1000) none }
    s.fault = 0 ∧ s.program = [] := by decide
/-- 60_exceptions.md R217: the observation is the items returned in the run, not those before it. -/
theorem test_observation :
    (observation { booted with results := [.word 7] } { booted with results := [.word 7, .word 1000] }).1 =
      [.word 1000] := rfl

/-- An operand that is a name bound before, and a decimal one (95_test_vectors.md 3.2, line 2). -/
theorem witness_CaptureNtpConvertsGetTime :
    (asmItem [("utc", .word 3600)] (.name "utc") = some (.word 3600) ∧
      AsmOperand.name "utc" ≠ .name "ws" ∧ AsmOperand.name "utc" ≠ .name "wus") ∧
    asmItem [] (.dec 0) = some (.word 0) ∧ AsmOperand.dec 0 ≠ .name "ws" ∧ AsmOperand.dec 0 ≠ .name "wus" := by decide
theorem witness_OcSyncAppliesOffset :
    asmItems [("f", .word 0)] [.dec 100, .name "f", .dec 105, .name "f", .dec 105, .hex 0x80000000, .dec 110, .name "f", .dec 0] =
      some (wordItems [100, 0, 105, 0, 105, 0x80000000, 110, 0, 0]) ∧
    ∀ o ∈ [AsmOperand.dec 110, .name "f", .dec 0], o ≠ .name "osec" ∧ o ≠ .name "ousec" := by decide

/-- A state with nothing to do: no command, the interrupt masked, no fault. -/
abbrev Idle (s : State) : Prop := s.program = [] ∧ s.ien = false ∧ s.fault = 0 ∧ s.gt = .closed

/-- An idle state steps to an idle state, whichever move comes next. -/
theorem idle_step (s : State) (h : Idle s) : ∃ t, step s = .next t ∧ Idle t := by
  have hi : Idle s.nextMove.2 := by rw [s.nextMove_state]; exact h
  unfold step
  generalize s.nextMove.2 = s2 at hi
  obtain ⟨hp, he, hf, hg⟩ := hi
  cases s.nextMove.1 with
  | issue => exact ⟨s2, by simp [takeMove, issueCommand, hp], hp, he, hf, hg⟩
  | sampleS => exact ⟨s2, by simp [takeMove, State.sampleSeconds, hg], hp, he, hf, hg⟩
  | sampleT => exact ⟨s2, by simp [takeMove, State.sampleTicks, hg], hp, he, hf, hg⟩
  | complete => exact ⟨s2, by simp [takeMove, State.completeGetTime, hg], hp, he, hf, hg⟩
  | tick =>
    refine ⟨s2.evTick, rfl, ?_⟩
    rcases s2.evTick_cases with ⟨_, e⟩ | ⟨_, _, e⟩ | ⟨_, _, e⟩ <;> rw [e] <;> exact ⟨hp, he, hf, hg⟩
  | rollover =>
    refine ⟨s2.evRollover, rfl, ?_⟩
    rcases s2.evRollover_cases with ⟨_, e⟩ | ⟨_, e⟩ <;> rw [e] <;> exact ⟨hp, he, hf, hg⟩
  | reset => exact ⟨s2.evReset, rfl, hp, rfl, rfl, rfl⟩

theorem witness_FairServiceEndsRequest :
    ∃ σ : Nat → State, Execution σ ∧ IsrFair σ ∧ ∀ n, (σ n).fault = 0 := by
  let next (x : { s : State // Idle s }) : { s : State // Idle s } :=
    ⟨_, (Classical.choose_spec (idle_step x.1 x.2)).2⟩
  let σ : Nat → { s : State // Idle s } := fun n => next^[n] ⟨fresh, by decide⟩
  refine ⟨fun n => (σ n).1, fun n => ?_, fun n => ⟨n, le_refl n, .inl fun h => ?_⟩, fun n => (σ n).2.2.2.1⟩
  · have hn : σ (n + 1) = next (σ n) := Function.iterate_succ_apply' next n _
    show step (σ n).1 = .next (σ (n + 1)).1
    rw [hn]
    exact (Classical.choose_spec (idle_step (σ n).1 (σ n).2)).1
  · have hi := h.2
    simp [State.irq, (σ n).2.2.1] at hi

end Sys2Proof.Tests
end

section
/-! LEMMAS AND PROOFS. What a line's operands stand for after an earlier line's results were bound, and with it what
the two pseudo-operations issue (30_encoding.md R77 to R79). -/

namespace Sys2Proof.Machine

section
variable {names : List String} {rs : List Item} {x : String}

/-- A name a line does not bind is not among its bindings. -/
theorem lookup_reverse_zip_of_notMem (hx : x ∉ names) : (names.zip rs).reverse.lookup x = none := by
  rw [List.lookup_eq_none_iff]
  rintro ⟨y, i⟩ hp
  have hy : y ∈ names := (List.of_mem_zip (List.mem_reverse.mp hp)).1
  have hne : x ≠ y := fun h => hx (h ▸ hy)
  exact bne_iff_ne.mpr hne

/-- Among different names, each stands for the result at its own place. -/
theorem lookup_reverse_zip_of_mem {r : Item} (hd : names.Nodup) (hr : (x, r) ∈ names.zip rs) :
    (names.zip rs).reverse.lookup x = some r := by
  induction names generalizing rs with
  | nil => cases hr
  | cons n ns ih =>
    obtain ⟨hn, hns⟩ := List.nodup_cons.mp hd
    cases rs with
    | nil => cases hr
    | cons i is =>
      rw [List.zip_cons_cons, List.reverse_cons, List.lookup_append]
      obtain h | h := List.mem_cons.mp hr
      · obtain ⟨rfl, rfl⟩ := Prod.mk.inj h
        simp [lookup_reverse_zip_of_notMem hn]
      · simp [ih hns h]

end

section
variable {env : AsmEnv} {l : AsmLine} {rs : List Item}

/-- A line's results change no operand but their own names. -/
theorem asmItem_bindResults_of_ne {o : AsmOperand} (ho : ∀ x ∈ l.results, o ≠ .name x) :
    asmItem (bindResults env l rs) o = asmItem env o := by
  cases o with
  | name y =>
    have hy : y ∉ l.results := fun h => ho y h rfl
    simp [asmItem, bindResults, List.lookup_append, lookup_reverse_zip_of_notMem hy]
  | dec k => rfl
  | hex n => rfl
  | bytes b => rfl

/-- Each name of a line stands for its result, whatever it stood for before. -/
theorem asmItem_bindResults_of_mem {x : String} {r : Item} (hd : l.results.Nodup) (hr : (x, r) ∈ l.results.zip rs) :
    asmItem (bindResults env l rs) (.name x) = some r := by
  simp [asmItem, bindResults, List.lookup_append, lookup_reverse_zip_of_mem hd hr]

/-- Operands stand for items exactly when each stands for its own. -/
@[simp] theorem asmItems_cons_eq_some {o : AsmOperand} {os : List AsmOperand} {i : Item} {is : List Item} :
    asmItems env (o :: os) = some (i :: is) ↔ asmItem env o = some i ∧ asmItems env os = some is := by
  rw [asmItems]
  cases asmItem env o <;> cases asmItems env os <;> simp

/-- A line issues an operation if its word and the items of its operands are the operation's. -/
theorem assemble_eq_encodeCommand {i : Instr} (hw : l.word = commandWord i)
    (ho : asmItems env l.ops = some (operandItems i)) : assemble env l = some (encodeCommand i) := by
  rw [assemble, ho, hw]
  rfl

end

/-- Settles O57: `ws` and `wus` stand for the results just bound, and the operand for what it stood for before. -/
theorem captureNtpConvertsGetTime : Obligations.CaptureNtpConvertsGetTime := by
  intro env o ws wus utc sec frac ho hws hwus
  have hd : ["ws", "wus"].Nodup := by decide
  have hkept : ∀ x ∈ ["ws", "wus"], o ≠ .name x := by simp [hws, hwus]
  refine ⟨_, _, rfl, assemble_eq_encodeCommand rfl rfl, assemble_eq_encodeCommand rfl ?_, rfl⟩
  simp only [operandItems, wordItems, List.map_cons, List.map_nil, asmItems_cons_eq_some]
  exact ⟨asmItem_bindResults_of_mem hd (by simp), asmItem_bindResults_of_mem hd (by simp),
    (asmItem_bindResults_of_ne hkept).trans ho, rfl⟩

/-- Settles O58: `osec` and `ousec` stand for the offset just bound, and T4 and utc for what they stood for before. -/
theorem ocSyncAppliesOffset : Obligations.OcSyncAppliesOffset := by
  intro env o1s o1f o2s o2f o3s o3f o4s o4f outc t1s t1f t2s t2f t3s t3f t4s t4f utc osec ousec nsec nusec hitems hne
  simp only [wordItems, List.map_cons, List.map_nil, asmItems_cons_eq_some] at hitems
  obtain ⟨h1s, h1f, h2s, h2f, h3s, h3f, h4s, h4f, hutc, -⟩ := hitems
  have hd : ["osec", "ousec"].Nodup := by decide
  have hkept : ∀ o ∈ [o4s, o4f, outc], ∀ x ∈ ["osec", "ousec"], o ≠ .name x := by simpa using hne
  refine ⟨_, _, rfl, assemble_eq_encodeCommand rfl ?_, assemble_eq_encodeCommand rfl ?_, rfl⟩ <;>
    simp only [operandItems, wordItems, List.map_cons, List.map_nil, asmItems_cons_eq_some]
  · exact ⟨h1s, h1f, h2s, h2f, h3s, h3f, h4s, h4f, rfl⟩
  · exact ⟨(asmItem_bindResults_of_ne (hkept o4s (by simp))).trans h4s,
      (asmItem_bindResults_of_ne (hkept o4f (by simp))).trans h4f,
      asmItem_bindResults_of_mem hd (by simp), asmItem_bindResults_of_mem hd (by simp),
      (asmItem_bindResults_of_ne (hkept outc (by simp))).trans hutc, rfl⟩

end Sys2Proof.Machine
end

section
/-! LEMMAS AND PROOFS. The clock's commands and events, each where it is enabled: what MC.INIT, MC.GET_TIME and
MC.SET_TIME write, and what EV.TICK and EV.ROLLOVER do (40_clock.md R100 to R103, R106). -/

namespace Sys2Proof.Machine

section
variable {s : State}

/-- Once the clock is configured, an issued command that asks for it has its effect. -/
theorem State.perform_requireInit_of_cfg (h : s.Clean) (hc : s.cfg = true) (f : State → State) :
    s.perform (fun s => s.requireInit f) = .next (f s) := by
  rw [State.perform_of_clean h, State.requireInit_of_cfg hc]

/-- Before MC.INIT, an issued command that asks for it writes Fault(2) and nothing else, whatever its effect would be
(60_exceptions.md R200, R202). -/
theorem State.perform_requireInit_of_not_cfg (h : s.Clean) (hc : s.cfg = false) (f : State → State) :
    s.perform (fun s => s.requireInit f) = .next { s with fault := 2 } := by
  rw [State.perform_of_clean h, State.requireInit_of_not_cfg hc, State.raise_of_clean _ _ h.1]
  rfl

/-- MC.INIT of an unconfigured clock starts it (40_clock.md R100). -/
theorem exec_mcInit_of_not_cfg (h : s.Clean) (hc : s.cfg = false) :
    exec .mcInit s = .next { s with cfg := true, rpend := false, ien := true, ten := true } := by
  rw [exec, execMcInit, State.perform_of_clean h, hc]
  rfl

/-- A second MC.INIT writes Fault(3) and nothing else (40_clock.md R100). -/
theorem exec_mcInit_of_cfg (h : s.Clean) (hc : s.cfg = true) : exec .mcInit s = .next { s with fault := 3 } := by
  rw [exec, execMcInit, State.perform_of_clean h, if_pos hc, State.raise_of_clean _ _ h.1]
  rfl

/-- The ticks MC.SET_TIME writes, as a number (40_clock.md R106). -/
theorem State.setTime_ticks_toNat (s : State) (sec usec : Word) :
    (s.setTime sec usec).ticks.toNat = usec.toNat / 100 % 10000 := by
  rw [State.setTime_ticks, BitVec.toNat_umod, BitVec.toNat_udiv]
  rfl

/-- The next tick is a rollover exactly where TICKS, as a number, is 9999 (40_clock.md R101). -/
theorem State.atRollover_iff_toNat (s : State) : s.atRollover ↔ s.ticks.toNat = 9999 :=
  s.atRollover_iff.trans BitVec.toNat_inj.symm

/-- An enabled EV.TICK at tick 9999 rolls over, and marks a rollover still pending as lost (40_clock.md R101). -/
theorem State.evTick_of_atRollover (he : s.tickEnabled) (ht : s.atRollover) :
    s.evTick = { s with ticks := 0, ovr := s.ovr || s.rpend, rpend := true } := by
  obtain ⟨hn, _⟩ | ⟨_, _, e⟩ | ⟨_, hn, _⟩ := s.evTick_cases
  · exact absurd he hn
  · exact e
  · exact absurd ht hn

/-- An enabled EV.TICK before tick 9999 advances TICKS by one (40_clock.md R101). -/
theorem State.evTick_of_not_atRollover (he : s.tickEnabled) (ht : ¬ s.atRollover) :
    s.evTick = { s with ticks := s.ticks + 1 } := by
  obtain ⟨hn, _⟩ | ⟨_, hn, _⟩ | ⟨_, _, e⟩ := s.evTick_cases
  · exact absurd he hn
  · exact absurd hn ht
  · exact e

/-- An enabled EV.ROLLOVER adds one second and clears RPEND (40_clock.md R102). -/
theorem State.evRollover_of_enabled (he : s.rolloverEnabled) :
    s.evRollover = { s with seconds := s.seconds + 1, rpend := false } := by
  obtain ⟨hn, _⟩ | ⟨_, e⟩ := s.evRollover_cases
  · exact absurd he hn
  · exact e

end

section
variable (s : State) (ms : List Move)

/-- Where the timer base moves next, the step is EV.TICK. -/
theorem step_of_sched_tick : step { s with sched := .tick :: ms } = .next { s with sched := ms }.evTick :=
  step_of_sched s .tick ms

/-- Where the service routine moves next, the step is EV.ROLLOVER. -/
theorem step_of_sched_rollover :
    step { s with sched := .rollover :: ms } = .next { s with sched := ms }.evRollover :=
  step_of_sched s .rollover ms

end

/-- Settles O6, by the two branches of an enabled tick. -/
theorem tickAdvancesOrRollsOver : Obligations.TickAdvancesOrRollsOver := by
  intro s ms hf hten hcfg
  have he : { s with sched := ms }.tickEnabled := ⟨hf, hten, hcfg⟩
  rw [step_of_sched_tick]
  refine ⟨fun ht => ?_, fun ht => ?_⟩
  · rw [State.evTick_of_atRollover he (s.atRollover_iff_toNat.mpr ht)]
  · rw [State.evTick_of_not_atRollover he (mt s.atRollover_iff_toNat.mp ht)]

/-- Settles O5, by the two branches of MC.INIT. -/
theorem initConfiguresAndStarts : Obligations.InitConfiguresAndStarts :=
  fun _ h => ⟨exec_mcInit_of_not_cfg h, exec_mcInit_of_cfg h⟩

/-- Settles O7: IEN and RPEND together are the interrupt request that enables the service. -/
theorem rolloverServiceAddsOneSecond : Obligations.RolloverServiceAddsOneSecond := by
  intro s ms hf hien hrpend
  have he : { s with sched := ms }.rolloverEnabled := ⟨hf, by simp [State.irq, hien, hrpend]⟩
  refine ⟨_, step_of_sched_rollover s ms, ?_⟩
  rw [State.evRollover_of_enabled he]
  exact ⟨BitVec.toNat_add s.seconds 1, rfl⟩

/-- Settles O9: the issue only asks for a configured clock, then opens the window. -/
theorem getTimeOpensWindow : Obligations.GetTimeOpensWindow :=
  fun _ h => ⟨fun hc => State.perform_requireInit_of_cfg h hc _, fun hc => State.perform_requireInit_of_not_cfg h hc _⟩

/-- Settles O12: `State.setTime` is the whole critical section, and its ticks are the quotient's remainder. -/
theorem setTimeOverwritesClock : Obligations.SetTimeOverwritesClock :=
  fun s sec usec h =>
    ⟨fun hc => ⟨_, s.setTime_ticks_toNat sec usec, State.perform_requireInit_of_cfg h hc _⟩,
      fun hc => State.perform_requireInit_of_not_cfg h hc _⟩

end Sys2Proof.Machine
end

section
/-! LEMMAS AND PROOFS. The parsers: what a big-endian word is as a number, and what TS.PARSE and PKT.PARSE answer
(41_wire.md R130, R132, R133). -/

namespace Sys2Proof.Machine

/-- A zero-extended byte shifted by at most 24 loses no bit. -/
theorem zext32_shiftLeft_toNat (b : Byte) {k : Nat} (hk : k ≤ 24) :
    (zext32 b <<< k).toNat = 2 ^ k * b.toNat := by
  have hb : 2 ^ k * b.toNat < 2 ^ 32 := calc
    2 ^ k * b.toNat < 2 ^ k * 2 ^ 8 := Nat.mul_lt_mul_of_pos_left b.isLt (Nat.two_pow_pos k)
    _ ≤ 2 ^ 24 * 2 ^ 8 := Nat.mul_le_mul_right _ (Nat.pow_le_pow_right (by decide) hk)
  rw [zext32, BitVec.toNat_shiftLeft, BitVec.toNat_setWidth_of_le (by decide), Nat.shiftLeft_eq, Nat.mul_comm,
    Nat.mod_eq_of_lt hb]

/-- Bytes put side by side do not overlap, so their bitwise or is their sum. -/
theorem or_bytes_eq_add {a b c d : Nat} (hb : b < 2 ^ 8) (hc : c < 2 ^ 8) (hd : d < 2 ^ 8) :
    2 ^ 24 * a ||| 2 ^ 16 * b ||| 2 ^ 8 * c ||| d = a * 2 ^ 24 + b * 2 ^ 16 + c * 2 ^ 8 + d := by
  have hab : 2 ^ 24 * a ||| 2 ^ 16 * b = 2 ^ 16 * (2 ^ 8 * a + b) := by
    rw [← Nat.two_pow_add_eq_or_of_lt (by omega)]; omega
  have habc : 2 ^ 16 * (2 ^ 8 * a + b) ||| 2 ^ 8 * c = 2 ^ 8 * (2 ^ 8 * (2 ^ 8 * a + b) + c) := by
    rw [← Nat.two_pow_add_eq_or_of_lt (by omega)]; omega
  rw [hab, habc, ← Nat.two_pow_add_eq_or_of_lt hd]
  omega

/-- A big-endian word as a number: the first byte is the most significant (00_scope.md R13). -/
theorem be32_toNat (p : List Byte) (i : Nat) :
    (be32 p i).toNat = (byteAt p i).toNat * 2 ^ 24 + (byteAt p (i + 1)).toNat * 2 ^ 16 +
      (byteAt p (i + 2)).toNat * 2 ^ 8 + (byteAt p (i + 3)).toNat := by
  have hlow (b : Byte) : (zext32 b).toNat = b.toNat := BitVec.toNat_setWidth_of_le (by decide)
  simp only [be32, BitVec.toNat_or, zext32_shiftLeft_toNat, hlow, Nat.reduceLeDiff]
  exact or_bytes_eq_add (BitVec.isLt _) (BitVec.isLt _) (BitVec.isLt _)

/-- A big-endian word, written as the word of its number. -/
theorem be32_eq_ofNat (p : List Byte) (i : Nat) :
    be32 p i = BitVec.ofNat 32 ((byteAt p i).toNat * 2 ^ 24 + (byteAt p (i + 1)).toNat * 2 ^ 16 +
      (byteAt p (i + 2)).toNat * 2 ^ 8 + (byteAt p (i + 3)).toNat) := by
  rw [← be32_toNat, BitVec.ofNat_toNat, BitVec.setWidth_eq]

/-- A zero-extended byte, written as the word of its number. -/
theorem zext32_eq_ofNat (b : Byte) : zext32 b = BitVec.ofNat 32 b.toNat := (BitVec.ofNat_toNat 32 b).symm

section
variable {s : State}

/-- TS.PARSE of 8 bytes returns the two big-endian words (41_wire.md R130). -/
theorem exec_tsParse_of_length {ts : List Byte} (h : s.Clean) (hl : ts.length = Config.tsBytes) :
    exec (.tsParse ts) s = .next (s.respondWords [be32 ts 0, be32 ts 4]) := by
  rw [exec, execTsParse, State.perform_of_clean h, if_pos hl]

/-- TS.PARSE of an array of another length writes Fault(4) and nothing else (41_wire.md R130). -/
theorem exec_tsParse_of_length_ne {ts : List Byte} (h : s.Clean) (hl : ts.length ≠ Config.tsBytes) :
    exec (.tsParse ts) s = .next { s with fault := 4 } := by
  rw [exec, execTsParse, State.perform_of_clean h, if_neg hl, State.raise_of_clean _ _ h.1]
  rfl

/-- PKT.PARSE of 48 bytes returns 1 and the fields (41_wire.md R133). -/
theorem exec_pktParse_of_length {p : List Byte} (h : s.Clean) (hl : p.length = Config.pktBytes.toNat) :
    exec (.pktParse Config.pktBytes p) s = .next (s.respondWords (1 :: packetWords (packetOf p))) := by
  rw [exec, execPktParse, if_pos hl, State.perform_of_clean h, if_pos rfl]

/-- PKT.PARSE of another number of bytes returns 0 alone (41_wire.md R133). -/
theorem exec_pktParse_of_length_ne {n : Word} {p : List Byte} (h : s.Clean) (hl : p.length = n.toNat)
    (hn : n ≠ Config.pktBytes) :
    exec (.pktParse n p) s = .next (s.respondWords [0]) := by
  rw [exec, execPktParse, if_pos hl, State.perform_of_clean h, if_neg hn]

end

/-- Settles O19: each result is `BE32` of its four bytes, which `be32_toNat` writes as a sum. -/
theorem tsParseReadsBigEndian : Obligations.TsParseReadsBigEndian := by
  intro s h
  refine ⟨fun b0 b1 b2 b3 b4 b5 b6 b7 => ?_, fun _ hl => exec_tsParse_of_length_ne h hl⟩
  let ts := [b0, b1, b2, b3, b4, b5, b6, b7]
  exact ⟨be32 ts 0, be32 ts 4, be32_toNat ts 0, be32_toNat ts 4, exec_tsParse_of_length h rfl⟩

/-- Settles O21, by whether the size is 48: the fields of `packetOf` are the zero-extended bytes and the big-endian
words of the claim. -/
theorem pktParseReturnsEveryField : Obligations.PktParseReturnsEveryField := by
  intro s n p h hl
  refine ⟨fun hn => exec_pktParse_of_length_ne h hl (mt (congrArg BitVec.toNat) hn), fun hn => ?_⟩
  obtain rfl : n = Config.pktBytes := BitVec.eq_of_toNat_eq hn
  rw [exec_pktParse_of_length h hl]
  simp only [packetWords, packetOf, timestampAt, zext32_eq_ofNat, be32_eq_ofNat]
  rfl

end Sys2Proof.Machine
end

section
/-! LEMMAS AND PROOFS. Offset arithmetic: the branches of the difference and of the carry, the halves and the fraction's
microseconds as numbers, and what each command returns (42_offset.md R150, R152, R155, R156; 43_fixedpoint.md R172). -/

namespace Sys2Proof.Machine

section
variable {a b : Timestamp}

/-- Without a borrow both halves of the timestamps are subtracted (42_offset.md R150). -/
theorem diff_of_le (h : a.frac.toNat ≤ b.frac.toNat) : diff a b = ⟨b.sec - a.sec, b.frac - a.frac⟩ :=
  if_neg (Nat.not_lt.mpr h)

/-- With a borrow the fraction is the complement of the opposite difference (42_offset.md R150). -/
theorem diff_of_lt (h : b.frac.toNat < a.frac.toNat) : diff a b = ⟨b.sec - a.sec - 1, ~~~(a.frac - b.frac)⟩ :=
  if_pos h

end

section
variable {sec usec : Word}

/-- Below one second nothing is carried (42_offset.md R152, R155). -/
theorem carryOnce_of_lt (h : usec.toNat < 1000000) : carryOnce sec usec = (sec, usec) :=
  if_neg (Nat.not_le.mpr h)

/-- From one second on, one second is carried (42_offset.md R152, R155). -/
theorem carryOnce_of_le (h : 1000000 ≤ usec.toNat) : carryOnce sec usec = (sec + 1, usec - Config.usPerSecond) :=
  if_pos h

end

/-- The seconds' half is the signed half toward zero: signed division by 2 does not overflow (00_scope.md R11). -/
theorem sdiv2_toInt (v : Word) : (sdiv2 v).toInt = v.toInt.tdiv 2 := by
  have hdiv : (v.sdiv 2).toInt = v.toInt.tdiv 2 := BitVec.toInt_sdiv_of_ne_or_ne v 2 (.inr (by decide))
  rw [sdiv2, ← hdiv, BitVec.ofInt_toInt]

/-- The microseconds of a fraction, written as a sum: the subtraction does not go below zero (43_fixedpoint.md R172,
R173). -/
theorem f2m_toNat_add (x : Word) :
    (f2m x).toNat + 759 * ((x.toNat / 2 ^ 10 + 32768) / 2 ^ 16) = x.toNat / 2 ^ 12 := by
  rw [f2m, BitVec.natCast_eq_ofNat]
  bv_omega

/-- A fraction stands for less than one second (43_fixedpoint.md R173). -/
theorem f2m_toNat_le (x : Word) : (f2m x).toNat ≤ 999999 := by
  have hsum := f2m_toNat_add x
  omega

/-- Two fractions' microseconds add up without wrapping (42_offset.md R153). -/
theorem f2m_add_f2m_toNat (x y : Word) : (f2m x + f2m y).toNat = (f2m x).toNat + (f2m y).toNat := by
  have hx := f2m_toNat_le x
  have hy := f2m_toNat_le y
  exact BitVec.toNat_add_of_lt (by omega)

section
variable {s : State}

/-- CV.F2M returns the microseconds (43_fixedpoint.md R172). -/
theorem exec_cvF2m (h : s.Clean) (x : Word) : exec (.cvF2m x) s = .next (s.respondWords [f2m x]) := by
  rw [exec, execCvF2m, State.perform_of_clean h]

/-- OC.DIFF returns the difference (42_offset.md R150). -/
theorem exec_ocDiff (h : s.Clean) (aSec aFrac bSec bFrac : Word) :
    exec (.ocDiff aSec aFrac bSec bFrac) s =
      .next (s.respondWords [(diff ⟨aSec, aFrac⟩ ⟨bSec, bFrac⟩).sec, (diff ⟨aSec, aFrac⟩ ⟨bSec, bFrac⟩).frac]) := by
  rw [exec, execOcDiff, State.perform_of_clean h]

/-- OC.OFFSET returns the round-trip offset (42_offset.md R152). -/
theorem exec_ocOffset (h : s.Clean) (t1s t1f t2s t2f t3s t3f t4s t4f : Word) :
    exec (.ocOffset t1s t1f t2s t2f t3s t3f t4s t4f) s =
      .next (s.respondWords [(offsetOf ⟨t1s, t1f⟩ ⟨t2s, t2f⟩ ⟨t3s, t3f⟩ ⟨t4s, t4f⟩).1,
        (offsetOf ⟨t1s, t1f⟩ ⟨t2s, t2f⟩ ⟨t3s, t3f⟩ ⟨t4s, t4f⟩).2]) := by
  rw [exec, execOcOffset, State.perform_of_clean h]

/-- OC.APPLY_CALC returns the corrected time (42_offset.md R155). -/
theorem exec_ocApplyCalc (h : s.Clean) (t4s t4f osec ousec utc : Word) :
    exec (.ocApplyCalc t4s t4f osec ousec utc) s =
      .next (s.respondWords [(applyCalc ⟨t4s, t4f⟩ osec ousec utc).1, (applyCalc ⟨t4s, t4f⟩ osec ousec utc).2]) := by
  rw [exec, execOcApplyCalc, State.perform_of_clean h]

end

/-- The offset where the microseconds of the two differences stay below one second (42_offset.md R152). -/
theorem offsetOf_of_lt {t1 t2 t3 t4 : Timestamp}
    (h : (f2m (diff t1 t2).frac).toNat + (f2m (diff t4 t3).frac).toNat < 1000000) :
    (offsetOf t1 t2 t3 t4).1.toInt = ((diff t1 t2).sec + (diff t4 t3).sec).toInt.tdiv 2 ∧
    (offsetOf t1 t2 t3 t4).2.toNat = ((f2m (diff t1 t2).frac).toNat + (f2m (diff t4 t3).frac).toNat) / 2 := by
  rw [← f2m_add_f2m_toNat] at h ⊢
  rw [offsetOf, carryOnce_of_lt h]
  exact ⟨sdiv2_toInt _, BitVec.toNat_udiv⟩

/-- The offset where those microseconds reach one second, which is carried before the halving (42_offset.md R152). -/
theorem offsetOf_of_le {t1 t2 t3 t4 : Timestamp}
    (h : 1000000 ≤ (f2m (diff t1 t2).frac).toNat + (f2m (diff t4 t3).frac).toNat) :
    (offsetOf t1 t2 t3 t4).1.toInt = ((diff t1 t2).sec + (diff t4 t3).sec + 1).toInt.tdiv 2 ∧
    (offsetOf t1 t2 t3 t4).2.toNat =
      ((f2m (diff t1 t2).frac).toNat + (f2m (diff t4 t3).frac).toNat - 1000000) / 2 := by
  rw [← f2m_add_f2m_toNat] at h ⊢
  rw [offsetOf, carryOnce_of_le h]
  refine ⟨sdiv2_toInt _, BitVec.toNat_udiv.trans ?_⟩
  rw [BitVec.toNat_sub_of_le h]
  rfl

/-- Settles O29, by the two branches of the difference. -/
theorem diffUsesBorrowRepresentation : Obligations.DiffUsesBorrowRepresentation := by
  intro s aSec aFrac bSec bFrac h
  rw [exec_ocDiff h]
  refine ⟨fun hle => ?_, fun hlt => ?_⟩
  · rw [diff_of_le hle]
    rfl
  · rw [diff_of_lt hlt]
    rfl

/-- Settles O31: the sum of the two microsecond terms does not wrap, so it decides the carry as a number. -/
theorem offsetHalvesCarriedSums : Obligations.OffsetHalvesCarriedSums :=
  fun _ _ _ _ _ _ _ _ _ h =>
    ⟨_, _, _, _, _, _, _, _, exec_ocDiff h _ _ _ _, exec_ocDiff h _ _ _ _, exec_cvF2m h _, exec_cvF2m h _,
      exec_ocOffset h _ _ _ _ _ _ _ _, offsetOf_of_lt, offsetOf_of_le⟩

/-- Settles O35: OC.APPLY is MC.SET_TIME of the corrected time, which is what it also returns. -/
theorem applySetsClockInOneStep : Obligations.ApplySetsClockInOneStep :=
  fun s _ _ _ _ _ h =>
    ⟨fun hc => ⟨_, _, _, exec_ocApplyCalc h _ _ _ _ _, s.setTime_ticks_toNat _ _,
        State.perform_requireInit_of_cfg h hc _⟩,
      fun hc => State.perform_requireInit_of_not_cfg h hc _⟩

end Sys2Proof.Machine
end

section
/-! LEMMAS AND PROOFS. The conversions to an NTP timestamp: what CV.M2F and CV.TO_NTP return, and their words as numbers
(43_fixedpoint.md R170, R175). -/

namespace Sys2Proof.Machine

/-- The fraction of a microsecond count, with each product and the sum reduced mod 2^32 (43_fixedpoint.md R170). -/
theorem m2f_toNat (u : Word) :
    (m2f u).toNat =
      (4294 * u.toNat + 1981 * u.toNat % 2 ^ 32 / 2 ^ 11 + 2911 * u.toNat % 2 ^ 32 / 2 ^ 28) % 2 ^ 32 := by
  simp only [m2f, BitVec.toNat_add, BitVec.toNat_mul, BitVec.toNat_ushiftRight, Nat.shiftRight_eq_div_pow,
    Nat.mod_add_mod]
  rfl

/-- The NTP seconds of a wall-clock reading, as an integer mod 2^32 (43_fixedpoint.md R175). -/
theorem toNtp_sec_toNat (wsec wusec utc : Word) :
    ((toNtp wsec wusec utc).sec.toNat : Int) = ((wsec.toNat : Int) - utc.toNat + 2208988800) % 2 ^ 32 := by
  have hdelta : Config.ntpUnixDelta.toNat = 2208988800 := rfl
  rw [toNtp, BitVec.toNat_add, BitVec.toNat_sub, hdelta]
  have hutc := utc.isLt
  omega

section
variable {s : State}

/-- CV.M2F returns the fraction (43_fixedpoint.md R170). -/
theorem exec_cvM2f (h : s.Clean) (u : Word) : exec (.cvM2f u) s = .next (s.respondWords [m2f u]) := by
  rw [exec, execCvM2f, State.perform_of_clean h]

/-- CV.TO_NTP returns the shifted seconds and the fraction CV.M2F returns (43_fixedpoint.md R175). -/
theorem exec_cvToNtp (h : s.Clean) (wsec wusec utc : Word) :
    exec (.cvToNtp wsec wusec utc) s = .next (s.respondWords [(toNtp wsec wusec utc).sec, m2f wusec]) := by
  rw [exec, execCvToNtp, State.perform_of_clean h]
  rfl

end

/-- Settles O22: reducing the first product before the sum does not change the sum mod 2^32. -/
theorem microsToFractionFormula : Obligations.MicrosToFractionFormula :=
  fun _ u h => ⟨m2f u, m2f_toNat u, exec_cvM2f h u⟩

/-- Settles O28: both commands return the same fraction. -/
theorem toNtpShiftsEpoch : Obligations.ToNtpShiftsEpoch :=
  fun _ wsec wusec utc h =>
    ⟨_, _, toNtp_sec_toNat wsec wusec utc, exec_cvM2f h wusec, exec_cvToNtp h wsec wusec utc⟩

end Sys2Proof.Machine
end

section
/-! LEMMAS AND PROOFS. The encoding: the decoder reads back every instruction the encoder writes and accepts nothing
else, which command words it refuses as illegal, and the step that issues a decoded command (30_encoding.md R70 to
R76). -/

namespace Sys2Proof.Machine

/-- The command word of every instruction is legal (30_encoding.md R70, R74, R76). -/
theorem commandWord_legal : ∀ i : Instr, Laws.CommandWord.Statement i
  | .mcInit => Laws.CommandWord.mcInit
  | .mcGetTime => Laws.CommandWord.mcGetTime
  | .mcSetTime sec usec => Laws.CommandWord.mcSetTime sec usec
  | .mcNowSeconds => Laws.CommandWord.mcNowSeconds
  | .tsParse ts => Laws.CommandWord.tsParse ts
  | .tsSerialize sec frac => Laws.CommandWord.tsSerialize sec frac
  | .pktParse n p => Laws.CommandWord.pktParse n p
  | .cvM2f u => Laws.CommandWord.cvM2f u
  | .cvF2m x => Laws.CommandWord.cvF2m x
  | .cvToNtp wsec wusec utc => Laws.CommandWord.cvToNtp wsec wusec utc
  | .ocDiff aSec aFrac bSec bFrac => Laws.CommandWord.ocDiff aSec aFrac bSec bFrac
  | .ocOffset t1s t1f t2s t2f t3s t3f t4s t4f => Laws.CommandWord.ocOffset t1s t1f t2s t2f t3s t3f t4s t4f
  | .ocApplyCalc t4s t4f osec ousec utc => Laws.CommandWord.ocApplyCalc t4s t4f osec ousec utc
  | .ocApply t4s t4f osec ousec utc => Laws.CommandWord.ocApply t4s t4f osec ousec utc

/-- The OPC as a number: the word's remainder by 256 (30_encoding.md R70). -/
theorem opcField_toNat (w : Word) : (opcField w).toNat = w.toNat % 256 := by
  simp [opcField, BitVec.extractLsb'_toNat]

/-- RSV is 0 exactly where the word is its OPC alone (30_encoding.md R70). -/
theorem rsvField_eq_zero_iff (w : Word) : rsvField w = 0 ↔ w.toNat / 256 = 0 := by
  have hrsv : (rsvField w).toNat = w.toNat / 256 := by
    have hw := w.isLt
    rw [rsvField, BitVec.extractLsb'_toNat, Nat.shiftRight_eq_div_pow]
    omega
  rw [← BitVec.toNat_inj, hrsv]
  rfl

/-- A command word with RSV = 0 is decoded by its OPC. -/
theorem decode_word_of_rsv {w : Word} (h : rsvField w = 0) (items : List Item) :
    decode (.word w :: items) = decodeOperands (opcField w).toNat items :=
  if_pos h

/-- The operand items of an instruction are read back whole; only PKT.PARSE has something to check. -/
theorem decodeOperands_operandItems {i : Instr} (h : i.wellFormed = true) (rest : List Item) :
    decodeOperands (opcField (commandWord i)).toNat (operandItems i ++ rest) = .ok (i, rest) := by
  cases i with
  | pktParse n p =>
    rw [commandWord]
    exact if_pos (beq_iff_eq.mp h)
  | _ =>
    rw [commandWord]
    rfl

/-- Whatever operand items are read, they are those of a well-formed instruction with this OPC. -/
theorem decodeOperands_eq_ok {opc : Nat} {items rest : List Item} {i : Instr}
    (h : decodeOperands opc items = .ok (i, rest)) :
    i.wellFormed = true ∧ commandWord i = BitVec.ofNat 32 opc ∧ items = operandItems i ++ rest := by
  fun_cases decodeOperands opc items
  case case10 n p _ hl =>
    rw [decodeOperands, if_pos hl] at h
    cases h
    exact ⟨beq_iff_eq.mpr hl, rfl, rfl⟩
  all_goals
    simp_all only [decodeOperands, Except.ok.injEq, Prod.mk.injEq, reduceCtorEq, if_false]
  all_goals
    obtain ⟨rfl, rfl⟩ := h
    exact ⟨rfl, rfl, rfl⟩

/-- An OPC is illegal exactly where the table has no row for it (30_encoding.md R76). -/
theorem decodeOperands_eq_illegalCmd_iff (opc : Nat) (items : List Item) :
    decodeOperands opc items = .error .illegalCmd ↔
      opc ∉ [0x01, 0x02, 0x03, 0x04, 0x10, 0x11, 0x12, 0x20, 0x21, 0x22, 0x30, 0x31, 0x32, 0x33] := by
  fun_cases decodeOperands opc items <;> simp_all

/-- A command word is illegal exactly where its RSV is not 0 or its OPC is not in the table, whatever operand items
follow (30_encoding.md R76). -/
theorem decode_word_eq_illegalCmd_iff (w : Word) (items : List Item) :
    decode (.word w :: items) = .error .illegalCmd ↔ w.toNat / 256 ≠ 0 ∨ w.toNat % 256 ∉
      [0x01, 0x02, 0x03, 0x04, 0x10, 0x11, 0x12, 0x20, 0x21, 0x22, 0x30, 0x31, 0x32, 0x33] := by
  by_cases hr : rsvField w = 0
  · rw [decode_word_of_rsv hr, decodeOperands_eq_illegalCmd_iff, opcField_toNat]
    simp only [(rsvField_eq_zero_iff w).mp hr, ne_eq, not_true_eq_false, false_or]
  · have hd : decode (.word w :: items) = .error .illegalCmd := if_neg hr
    simp only [hd, mt (rsvField_eq_zero_iff w).mpr hr, ne_eq, not_false_eq_true, true_or]

/-- An illegal command word makes the whole command illegal. -/
theorem decodeCommand_eq_illegalCmd {c : Command} (h : decode c.items = .error .illegalCmd) :
    decodeCommand c = .error .illegalCmd := by
  rw [decodeCommand, h]

section
variable {s : State} {c : Command} {cs : List Command}

/-- Where FG may issue, its next command is performed if it decodes (60_exceptions.md R215). -/
theorem issueCommand_of_ok {i : Instr} (h : s.Clean) (hp : s.program = c :: cs) (hd : decodeCommand c = .ok i) :
    issueCommand s = exec i { s with program := cs } := by
  have hr : s.fgReady := h
  rw [issueCommand, if_pos hr, hp]
  simp only [hd]

/-- Where FG may issue, an illegal command raises Fault(1) (60_exceptions.md R200). -/
theorem issueCommand_of_illegalCmd (h : s.Clean) (hp : s.program = c :: cs)
    (hd : decodeCommand c = .error .illegalCmd) : issueCommand s = .next { s with program := cs, fault := 1 } := by
  have hr : s.fgReady := h
  rw [issueCommand, if_pos hr, hp]
  simp only [hd]
  exact congrArg _ (State.raise_of_clean _ _ h.1)

end

/-- Settles O39: the command word names the operation, whose operand items are then read back. -/
theorem decodeInvertsEncode : Obligations.DecodeInvertsEncode :=
  fun i rest h => (decode_word_of_rsv (commandWord_legal i).1 _).trans (decodeOperands_operandItems h rest)

/-- Settles O40: an accepted stream begins with a word whose RSV is 0, so that its OPC is the whole word. -/
theorem encodeInvertsDecode : Obligations.EncodeInvertsDecode := by
  intro items i rest h
  fun_cases decode items
  case case3 w items hr =>
    rw [decode_word_of_rsv hr] at h
    obtain ⟨hwf, hw, rfl⟩ := decodeOperands_eq_ok h
    have hw' : w = commandWord i := by
      have h0 := (rsvField_eq_zero_iff w).mp hr
      rw [hw, opcField_toNat, ← BitVec.toNat_inj, BitVec.toNat_ofNat]
      omega
    exact ⟨hwf, congrArg (fun v => .word v :: (operandItems i ++ rest)) hw'⟩
  case case4 w items hr =>
    rw [decode, if_neg hr] at h
    cases h
  all_goals cases h

/-- Settles O38: a word of the table is below 256, so its RSV is 0 and its OPC is itself. -/
theorem tableWordsAreNeverIllegal : Obligations.TableWordsAreNeverIllegal := by
  intro w hw rest
  rw [ne_eq, decode_word_eq_illegalCmd_iff]
  have hlt : w.toNat < 256 := by
    simp only [List.mem_cons, List.not_mem_nil, or_false] at hw
    omega
  rw [Nat.div_eq_of_lt hlt, Nat.mod_eq_of_lt hlt]
  exact fun hill => hill.elim (· rfl) (· hw)

/-- Settles O37: the word alone makes the command illegal. -/
theorem illegalCommandRaisesFaultOne : Obligations.IllegalCommandRaisesFaultOne :=
  fun _ c _ _ h hw => issueCommand_of_illegalCmd h rfl
    (decodeCommand_eq_illegalCmd ((decode_word_eq_illegalCmd_iff c.word c.operands).mpr hw))

/-- Settles O41: the decoder computes on closed items. -/
theorem specCommandWordsDecode : Obligations.SpecCommandWordsDecode := ⟨rfl, rfl, rfl, rfl, rfl⟩

/-- Settles O42: FG's move to issue performs the decoded command. -/
theorem stepIssuesDecodedCommand : Obligations.StepIssuesDecodedCommand :=
  fun _ _ _ _ _ h hd => issueCommand_of_ok h rfl hd

/-- Settles O43: the placed command goes to the front of FG's program and its issue to the front of the schedule, and
the step takes both away again. -/
theorem placedWordRunsNext : Obligations.PlacedWordRunsNext := by
  intro s nbits w i h hd
  have hc : decodeCommand (tableCommand nbits w) = .ok i := by
    unfold decodeTableWord at hd
    cases hr : decodeCommand (tableCommand nbits w) with
    | ok j =>
      rw [hr] at hd
      exact congrArg _ (Option.some.inj hd)
    | error e =>
      rw [hr] at hd
      cases hd
  exact stepIssuesDecodedCommand s _ s.program s.sched i h hc

end Sys2Proof.Machine
end

section
/-! LEMMAS AND PROOFS. The steps that are no commands, also where they are not enabled; EV.RESET and the state it
leaves; where a command and a step answer a next state (40_clock.md R101 to R105; 60_exceptions.md R205, R215;
70_reset_and_hazards.md R230, R231). -/

namespace Sys2Proof.Machine

section
variable {s : State}

/-- Without its enables EV.TICK does nothing (log entry 2). -/
theorem State.evTick_of_not_enabled (h : ¬ s.tickEnabled) : s.evTick = s := if_neg h

/-- Without an interrupt request EV.ROLLOVER does nothing (log entry 2). -/
theorem State.evRollover_of_not_enabled (h : ¬ s.rolloverEnabled) : s.evRollover = s := if_neg h

/-- SAMPLE_S does nothing in the fault state and where the first slot is not empty (log entry 2). -/
theorem State.sampleSeconds_eq_self (h : s.fault ≠ 0 ∨ ∀ b, s.gt ≠ .opened none b) : s.sampleSeconds = s := by
  obtain e | ⟨b, hf, hg, -⟩ := s.sampleSeconds_cases
  · exact e
  · exact (h.elim (· hf) (· b hg)).elim

/-- SAMPLE_T does nothing in the fault state and where the second slot is not empty (log entry 2). -/
theorem State.sampleTicks_eq_self (h : s.fault ≠ 0 ∨ ∀ a, s.gt ≠ .opened a none) : s.sampleTicks = s := by
  obtain e | ⟨a, hf, hg, -⟩ := s.sampleTicks_cases
  · exact e
  · exact (h.elim (· hf) (· a hg)).elim

/-- The completion does nothing in the fault state and before both slots are filled (log entry 2). -/
theorem State.completeGetTime_eq_self (h : s.fault ≠ 0 ∨ ∀ a b, s.gt ≠ .opened (some a) (some b)) :
    s.completeGetTime = s := by
  obtain e | ⟨a, b, hf, hg, -⟩ := s.completeGetTime_cases
  · exact e
  · exact (h.elim (· hf) (· a b hg)).elim

/-- FG issues nothing where it may not, and where it has nothing to issue (log entry 2). -/
theorem issueCommand_eq_self (h : s.fault ≠ 0 ∨ s.gt ≠ .closed ∨ s.program = []) : issueCommand s = .next s := by
  by_cases hr : s.fgReady
  · have hp : s.program = [] := h.elim (absurd hr.1) (Or.elim · (absurd hr.2) id)
    rw [issueCommand, if_pos hr, hp]
  · exact if_neg hr

/-- SAMPLE_S fills an empty first slot from SECONDS (40_clock.md R104). -/
theorem State.sampleSeconds_of_empty {b : Option Word} (hf : s.fault = 0) (hg : s.gt = .opened none b) :
    s.sampleSeconds = { s with gt := .opened (some s.seconds) b } := by
  rw [State.sampleSeconds, if_pos hf, hg]

/-- SAMPLE_T fills an empty second slot from TICKS (40_clock.md R104). -/
theorem State.sampleTicks_of_empty {a : Option Word} (hf : s.fault = 0) (hg : s.gt = .opened a none) :
    s.sampleTicks = { s with gt := .opened a (some s.ticks) } := by
  rw [State.sampleTicks, if_pos hf, hg]

/-- With both slots filled the completion closes the window and returns the sampled time (40_clock.md R105). -/
theorem State.completeGetTime_of_filled {a b : Word} (hf : s.fault = 0) (hg : s.gt = .opened (some a) (some b)) :
    s.completeGetTime = { s with gt := .closed, results := s.results ++ [.word a, .word (b * 100)] } := by
  rw [State.completeGetTime, if_pos hf, hg]
  rfl

/-- In the fault state every move but EV.RESET does nothing (60_exceptions.md R205; log entry 2). -/
theorem takeMove_of_faulted {m : Move} (hf : s.fault ≠ 0) (hm : m ≠ .reset) : takeMove m s = .next s := by
  cases m with
  | issue => exact issueCommand_eq_self (.inl hf)
  | sampleS => exact congrArg _ (State.sampleSeconds_eq_self (.inl hf))
  | sampleT => exact congrArg _ (State.sampleTicks_eq_self (.inl hf))
  | complete => exact congrArg _ (State.completeGetTime_eq_self (.inl hf))
  | tick => exact congrArg _ (State.evTick_of_not_enabled fun he => hf he.1)
  | rollover => exact congrArg _ (State.evRollover_of_not_enabled fun he => hf he.1)
  | reset => exact absurd rfl hm

section
variable {ms : List Move}

/-- Where the schedule names the next move, the step is that move on the state behind the choice. -/
theorem step_eq_of_sched {m : Move} (hs : s.sched = m :: ms) : step s = takeMove m { s with sched := ms } := by
  rw [step, State.nextMove_of_sched hs]

/-- The step of SAMPLE_S where its slot is empty. -/
theorem step_sampleS {b : Option Word} (hs : s.sched = .sampleS :: ms) (hf : s.fault = 0)
    (hg : s.gt = .opened none b) : step s = .next { s with gt := .opened (some s.seconds) b, sched := ms } :=
  (step_eq_of_sched hs).trans (congrArg _ (State.sampleSeconds_of_empty (s := { s with sched := ms }) hf hg))

/-- The step of SAMPLE_T where its slot is empty. -/
theorem step_sampleT {a : Option Word} (hs : s.sched = .sampleT :: ms) (hf : s.fault = 0)
    (hg : s.gt = .opened a none) : step s = .next { s with gt := .opened a (some s.ticks), sched := ms } :=
  (step_eq_of_sched hs).trans (congrArg _ (State.sampleTicks_of_empty (s := { s with sched := ms }) hf hg))

/-- The step of the completion where both slots are filled. -/
theorem step_complete {a b : Word} (hs : s.sched = .complete :: ms) (hf : s.fault = 0)
    (hg : s.gt = .opened (some a) (some b)) :
    step s = .next
      { s with gt := .closed, sched := ms, results := s.results ++ [.word a, .word (b * 100)] } :=
  (step_eq_of_sched hs).trans (congrArg _ (State.completeGetTime_of_filled (s := { s with sched := ms }) hf hg))

end

end

/-- A tick sample in range times 100 does not wrap (40_clock.md R105; 10_state.md R22). -/
theorem mul_usPerTick_toNat {t : Word} (h : t.toNat ≤ 9999) : (t * 100).toNat = t.toNat * 100 :=
  BitVec.toNat_mul_of_lt (y := 100) (show t.toNat * 100 < 2 ^ 32 by omega)

/-- The TICKS a reset draws, as a word, is the value drawn (log entry 3). -/
theorem resetTicks_toNat (k : Nat) :
    (BitVec.ofNat 32 (Config.resetTicks k).val).toNat = (Config.resetTicks k).val :=
  Nat.mod_eq_of_lt (by omega)

/-- The TICKS a reset draws is in range (70_reset_and_hazards.md R230). -/
theorem resetTicks_toNat_le (k : Nat) : (BitVec.ofNat 32 (Config.resetTicks k).val).toNat ≤ 9999 := by
  rw [resetTicks_toNat]
  omega

/-- Every well-formed command is performed where FG may issue one, and stops by name elsewhere. -/
theorem exec_eq_perform {i : Instr} (h : i.wellFormed = true) : ∃ f : State → State, ∀ s, exec i s = s.perform f := by
  cases i with
  | pktParse n p => exact ⟨_, fun _ => if_pos (beq_iff_eq.mp h)⟩
  | _ => exact ⟨_, fun _ => rfl⟩

/-- A decoded command is well formed. -/
theorem wellFormed_of_decodeCommand {c : Command} {i : Instr} (h : decodeCommand c = .ok i) : i.wellFormed = true := by
  unfold decodeCommand at h
  split at h
  next j hd =>
    cases h
    exact (encodeInvertsDecode _ _ _ hd).1
  · cases h
  · cases h

/-- Settles O8: each move by its own lemma, on the state behind the choice. -/
theorem movesNotEnabledChangeNothing : Obligations.MovesNotEnabledChangeNothing := by
  intro s ms
  let t : State := { s with sched := ms }
  refine ⟨fun h => congrArg _ (State.evTick_of_not_enabled (s := t) fun ⟨hf, hten, hcfg⟩ => ?_),
    fun h => congrArg _ (State.evRollover_of_not_enabled (s := t) fun ⟨hf, hirq⟩ => ?_),
    fun h => congrArg _ (State.sampleSeconds_eq_self (s := t) h),
    fun h => congrArg _ (State.sampleTicks_eq_self (s := t) h),
    fun h => congrArg _ (State.completeGetTime_eq_self (s := t) h),
    fun h => issueCommand_eq_self (s := t) h⟩
  · simp_all [t]
  · obtain ⟨hien, hrpend⟩ := Bool.and_eq_true_iff.mp hirq
    simp_all [t]

/-- Settles O10, by the two samples on an empty slot. -/
theorem samplesFillEmptySlots : Obligations.SamplesFillEmptySlots :=
  fun _ _ _ _ h => ⟨step_sampleS rfl h rfl, step_sampleT rfl h rfl⟩

/-- Settles O11: a tick sample in range times 100 does not wrap. -/
theorem completionReturnsSampledTime : Obligations.CompletionReturnsSampledTime := by
  intro s ms a b h
  refine ⟨_, rfl, step_complete rfl h rfl, fun hb => ?_⟩
  rw [mul_usPerTick_toNat hb]
  omega

/-- Settles O48: an open window is not Closed. -/
theorem openWindowHoldsBackCommands : Obligations.OpenWindowHoldsBackCommands :=
  fun _ _ _ _ => issueCommand_eq_self (.inr (.inl Window.noConfusion))

/-- Settles O1: the TICKS drawn are in range, the rest is written out. -/
theorem resetStateMeetsAfterReset : Obligations.ResetStateMeetsAfterReset :=
  ⟨⟨resetTicks_toNat_le 0, rfl, rfl, rfl, rfl, rfl, rfl, rfl⟩, rfl, rfl⟩

/-- Settles O2: after reset the clock is not configured, and nothing is pending, lost or open. -/
theorem resetStateMeetsInvariant : Obligations.ResetStateMeetsInvariant :=
  ⟨resetTicks_toNat_le 0, rfl, rfl, Nat.zero_le 4, rfl, fun _ => ⟨rfl, rfl, rfl⟩⟩

/-- Settles O3, with the TICKS of the draw the reset makes. -/
theorem resetEventWritesEveryItem : Obligations.ResetEventWritesEveryItem :=
  fun s _ => ⟨_, resetTicks_toNat s.draws, resetTicks_toNat_le s.draws, rfl⟩

/-- Settles O4: TEN and IEN are 0 after reset, so neither move is enabled. -/
theorem afterResetTimerAndServiceAreOff : Obligations.AfterResetTimerAndServiceAreOff := by
  intro s ms ⟨_, hten, hien, _⟩
  obtain ⟨htick, hrollover, -⟩ := movesNotEnabledChangeNothing s ms
  exact ⟨htick (.inr (.inl hten)), hrollover (.inr (.inl hien))⟩

/-- Settles O44: where FG may issue, a performed command answers its effect. -/
theorem cleanStatesCompleteEveryCommand : Obligations.CleanStatesCompleteEveryCommand := by
  intro i s hwf h
  obtain ⟨f, hf⟩ := exec_eq_perform hwf
  exact ⟨f s, (hf s).trans (State.perform_of_clean h f)⟩

/-- Settles O45, by the two ways a performed command stops. -/
theorem commandsStopWhereNoneMayIssue : Obligations.CommandsStopWhereNoneMayIssue := by
  intro i s hwf
  obtain ⟨f, hf⟩ := exec_eq_perform hwf
  exact ⟨fun h => (hf s).trans (State.perform_of_faulted h f),
    fun _ _ h hg => (hf s).trans (State.perform_of_open h hg f)⟩

/-- Settles O46: a command that decodes is well formed, so only the issue of one that does not can stop. -/
theorem stepStopsOnlyOnMalformedDelivery : Obligations.StepStopsOnlyOnMalformedDelivery := by
  intro s
  rw [step]
  cases hm : s.nextMove.1 with
  | issue =>
    have hs := s.nextMove_state
    obtain ⟨e, -⟩ | ⟨hc, c, cs, i, -, hd, e⟩ | ⟨-, _, _, -, -, e⟩ | ⟨hc, c, cs, e, hp, hd, hne, he⟩ :=
      issueCommand_cases s.nextMove.2
    · exact .inl ⟨_, e⟩
    · obtain ⟨t, ht⟩ := cleanStatesCompleteEveryCommand i { s.nextMove.2 with program := cs }
        (wellFormed_of_decodeCommand hd) hc
      exact .inl ⟨t, e.trans ht⟩
    · exact .inl ⟨_, e⟩
    · rw [hs] at hc hp
      exact .inr ⟨rfl, hc, c, cs, e, hp, hd, hne, he⟩
  | _ => exact .inl ⟨_, rfl⟩

/-- Settles O47: choosing the move writes no state item, and the move does nothing. -/
theorem faultStateIsQuiescent : Obligations.FaultStateIsQuiescent := by
  intro s hf hm
  have hs := s.nextMove_state
  refine ⟨s.nextMove.2, takeMove_of_faulted (by rw [hs]; exact hf) hm, ?_⟩
  rw [hs]
  exact ⟨⟨rfl, rfl, rfl, rfl, rfl, rfl, rfl, rfl, rfl⟩, rfl, rfl⟩

end Sys2Proof.Machine
end

section
/-! LEMMAS AND PROOFS. The invariant of every reachable state: choosing a move writes no state item, and each agent's
move keeps it (10_state.md R22, R26 to R28, R30). -/

namespace Sys2Proof.Machine

section
variable (s : State)

@[simp] theorem State.nextMove_seconds : s.nextMove.2.seconds = s.seconds := by rw [s.nextMove_state]
@[simp] theorem State.nextMove_ticks : s.nextMove.2.ticks = s.ticks := by rw [s.nextMove_state]
@[simp] theorem State.nextMove_ten : s.nextMove.2.ten = s.ten := by rw [s.nextMove_state]
@[simp] theorem State.nextMove_ien : s.nextMove.2.ien = s.ien := by rw [s.nextMove_state]
@[simp] theorem State.nextMove_rpend : s.nextMove.2.rpend = s.rpend := by rw [s.nextMove_state]
@[simp] theorem State.nextMove_cfg : s.nextMove.2.cfg = s.cfg := by rw [s.nextMove_state]
@[simp] theorem State.nextMove_gt : s.nextMove.2.gt = s.gt := by rw [s.nextMove_state]
@[simp] theorem State.nextMove_fault : s.nextMove.2.fault = s.fault := by rw [s.nextMove_state]
@[simp] theorem State.nextMove_ovr : s.nextMove.2.ovr = s.ovr := by rw [s.nextMove_state]
@[simp] theorem State.nextMove_program : s.nextMove.2.program = s.program := by rw [s.nextMove_state]
@[simp] theorem State.nextMove_results : s.nextMove.2.results = s.results := by rw [s.nextMove_state]

end

section
variable {s : State}

/-- The code of every fault is at most 4 (60_exceptions.md R200). -/
theorem faultCode_toNat_le (c : FaultCode) : (faultCode c).toNat ≤ 4 := by cases c <;> decide

/-- Raising a fault keeps the invariant. -/
theorem State.raise_inv (h : s.Inv) (c : FaultCode) : (s.raise c).Inv := by
  obtain ⟨htk, hten, hien, hf, hw, hidle⟩ := h
  by_cases h0 : s.fault = 0
  · rw [State.raise_of_clean _ _ h0]
    exact ⟨htk, hten, hien, faultCode_toNat_le c, hw, hidle⟩
  · rw [State.raise_of_faulted _ _ h0]
    exact ⟨htk, hten, hien, hf, hw, hidle⟩

/-- The ticks MC.SET_TIME writes are in range, and it leaves the timer on (40_clock.md R106). -/
theorem State.setTime_inv (h : s.Inv) (hc : s.cfg = true) (sec usec : Word) : (s.setTime sec usec).Inv := by
  obtain ⟨-, -, -, hf, hw, -⟩ := h
  refine ⟨?_, hc.symm, hc.symm, hf, hw, fun hn => Bool.noConfusion (hc.symm.trans hn)⟩
  rw [s.setTime_ticks_toNat]
  omega

/-- Every effect of a command keeps the invariant. -/
theorem Effect.inv {i : Instr} {t : State} (h : s.Inv) (he : Effect i s t) : t.Inv := by
  cases he with
  | answered _ rs => exact h
  | faulted c => exact State.raise_inv h c
  | configured =>
    obtain ⟨htk, -, -, hf, hw, -⟩ := h
    exact ⟨htk, rfl, rfl, hf, hw, Bool.noConfusion⟩
  | windowed _ hc =>
    obtain ⟨htk, hten, hien, hf, -, -⟩ := h
    exact ⟨htk, hten, hien, hf, rfl, fun hn => Bool.noConfusion (hc.symm.trans hn)⟩
  | timeSet sec usec _ hc => exact State.setTime_inv h hc sec usec
  | applied sec usec _ hc => exact State.setTime_inv h hc sec usec

/-- EV.TICK before tick 9999 keeps TICKS in range (10_state.md R22). -/
theorem succ_ticks_toNat {k : Word} (h : k.toNat ≤ 9999) (hne : k ≠ 9999) :
    (k + 1).toNat = k.toNat + 1 ∧ k.toNat + 1 ≤ 9999 := by
  have hk : k.toNat ≠ 9999 := fun hk => hne (BitVec.eq_of_toNat_eq hk)
  exact ⟨BitVec.toNat_add_of_lt (y := 1) (show k.toNat + 1 < 2 ^ 32 by omega), by omega⟩

/-- EV.TICK keeps the invariant: it is enabled only in a configured clock. -/
theorem State.evTick_inv (h : s.Inv) : s.evTick.Inv := by
  have ⟨htk, hten, hien, hf, hw, _⟩ := h
  obtain ⟨-, e⟩ | ⟨⟨-, -, hc⟩, -, e⟩ | ⟨⟨-, -, hc⟩, hne, e⟩ := s.evTick_cases <;> rw [e]
  · exact h
  · exact ⟨Nat.zero_le _, hten, hien, hf, hw, fun hn => Bool.noConfusion (hc.symm.trans hn)⟩
  · obtain ⟨hs, hle⟩ := succ_ticks_toNat htk hne
    exact ⟨hs.trans_le hle, hten, hien, hf, hw, fun hn => Bool.noConfusion (hc.symm.trans hn)⟩

/-- EV.ROLLOVER keeps the invariant. -/
theorem State.evRollover_inv (h : s.Inv) : s.evRollover.Inv := by
  have ⟨htk, hten, hien, hf, hw, hidle⟩ := h
  obtain ⟨-, e⟩ | ⟨-, e⟩ := s.evRollover_cases <;> rw [e]
  · exact h
  · exact ⟨htk, hten, hien, hf, hw, fun hn => ⟨rfl, (hidle hn).2⟩⟩

/-- A window opens only in a configured clock. -/
theorem State.Inv.cfg_of_opened {a b : Option Word} (h : s.Inv) (hg : s.gt = .opened a b) : s.cfg = true := by
  obtain ⟨-, -, -, -, -, hidle⟩ := h
  rw [← Bool.not_eq_false]
  intro hn
  obtain ⟨-, -, hclosed⟩ := hidle hn
  cases hg.symm.trans hclosed

/-- Whether a window is legal does not depend on its first slot. -/
theorem windowLegal_opened (a b : Option Word) : windowLegal (.opened a b) = windowLegal (.opened none b) := by
  cases b <;> rfl

/-- SAMPLE_S keeps the invariant. -/
theorem State.sampleSeconds_inv (h : s.Inv) : s.sampleSeconds.Inv := by
  have ⟨htk, hten, hien, hf, hw, _⟩ := h
  obtain e | ⟨b, -, hg, e⟩ := s.sampleSeconds_cases <;> rw [e]
  · exact h
  · have hc := h.cfg_of_opened hg
    rw [hg] at hw
    exact ⟨htk, hten, hien, hf, (windowLegal_opened _ b).trans hw, fun hn => Bool.noConfusion (hc.symm.trans hn)⟩

/-- SAMPLE_T keeps the invariant: the sample is a TICKS in range. -/
theorem State.sampleTicks_inv (h : s.Inv) : s.sampleTicks.Inv := by
  have ⟨htk, hten, hien, hf, _, _⟩ := h
  obtain e | ⟨a, -, hg, e⟩ := s.sampleTicks_cases <;> rw [e]
  · exact h
  · have hc := h.cfg_of_opened hg
    exact ⟨htk, hten, hien, hf, decide_eq_true htk, fun hn => Bool.noConfusion (hc.symm.trans hn)⟩

/-- The completion of MC.GET_TIME keeps the invariant. -/
theorem State.completeGetTime_inv (h : s.Inv) : s.completeGetTime.Inv := by
  have ⟨htk, hten, hien, hf, _, hidle⟩ := h
  obtain e | ⟨a, b, -, -, e⟩ := s.completeGetTime_cases <;> rw [e]
  · exact h
  · exact ⟨htk, hten, hien, hf, rfl, fun hn => ⟨(hidle hn).1, (hidle hn).2.1, rfl⟩⟩

/-- EV.RESET brings the invariant about in every state. -/
theorem State.evReset_inv (s : State) : s.evReset.Inv :=
  ⟨resetTicks_toNat_le s.draws, rfl, rfl, Nat.zero_le 4, rfl, fun _ => ⟨rfl, rfl, rfl⟩⟩

/-- An issue keeps the invariant. -/
theorem issueCommand_inv {t : State} (h : s.Inv) (hi : issueCommand s = .next t) : t.Inv := by
  obtain rfl | ⟨-, _, cs, _, -, -, he⟩ | ⟨-, _, _, -, -, rfl⟩ := issueCommand_next hi
  · exact h
  · exact Effect.inv (s := { s with program := cs }) h he
  · obtain ⟨htk, hten, hien, -, hw, hidle⟩ := h
    exact ⟨htk, hten, hien, (by decide : (1 : BitVec 8).toNat ≤ 4), hw, hidle⟩

end

/-- Settles O49, by the move: choosing it writes no state item, and each move keeps the invariant. -/
theorem everyStepKeepsInvariant : Obligations.EveryStepKeepsInvariant := by
  intro s t h hstep
  have h' : s.nextMove.2.Inv := by simpa [State.Inv] using h
  obtain ⟨-, hi⟩ | ⟨-, rfl⟩ | ⟨-, rfl⟩ | ⟨-, rfl⟩ | ⟨-, rfl⟩ | ⟨-, rfl⟩ | ⟨-, rfl⟩ := step_cases hstep
  · exact issueCommand_inv h' hi
  · exact State.sampleSeconds_inv h'
  · exact State.sampleTicks_inv h'
  · exact State.completeGetTime_inv h'
  · exact State.evTick_inv h'
  · exact State.evRollover_inv h'
  · exact State.evReset_inv _

end Sys2Proof.Machine
end

section
/-! LEMMAS AND PROOFS. Who writes what: the writers of SECONDS, CFG, FAULT and RPEND, the count of SECONDS and the
pending rollover together, and the end of an interrupt request (10_state.md sections 2 and 4; 60_exceptions.md R210).
-/

namespace Sys2Proof.Machine

/-! ### The writers of the state items -/

section
variable {i : Instr} {s t : State}

/-- A command writes SECONDS only if it sets the clock, configured (10_state.md R21). -/
theorem Effect.seconds_cases (he : Effect i s t) :
    t.seconds = s.seconds ∨ (setsClock i = true ∧ s.cfg = true) := by
  cases he with
  | answered => exact .inl rfl
  | faulted => exact .inl (s.raise_seconds _)
  | configured => exact .inl rfl
  | windowed => exact .inl rfl
  | timeSet _ _ hi hc => exact .inr ⟨by rw [hi]; rfl, hc⟩
  | applied _ _ hi hc => exact .inr ⟨hi, hc⟩

/-- A command writes CFG only if it is MC.INIT (10_state.md R26). -/
theorem Effect.cfg_cases (he : Effect i s t) : t.cfg = s.cfg ∨ (i = .mcInit ∧ t.cfg = true) := by
  cases he with
  | configured hi => exact .inr ⟨hi, rfl⟩
  | faulted => exact .inl (s.raise_cfg _)
  | _ => exact .inl rfl

/-- A command writes RPEND only to clear it, and only if it starts or sets the clock (10_state.md R25). -/
theorem Effect.rpend_cases (he : Effect i s t) :
    t.rpend = s.rpend ∨ (t.rpend = false ∧ (i = .mcInit ∨ setsClock i = true)) := by
  cases he with
  | answered => exact .inl rfl
  | faulted => exact .inl (s.raise_rpend _)
  | configured hi => exact .inr ⟨rfl, .inl hi⟩
  | windowed => exact .inl rfl
  | timeSet _ _ hi => exact .inr ⟨rfl, .inr (by rw [hi]; rfl)⟩
  | applied _ _ hi => exact .inr ⟨rfl, .inr hi⟩

/-- No command writes OVR, nor what is the model's own but for the results (10_state.md R29; log entries 1, 4, 5). -/
theorem Effect.frame (he : Effect i s t) :
    t.ovr = s.ovr ∧ t.program = s.program ∧ t.sched = s.sched ∧ t.draws = s.draws := by
  cases he <;> simp

end

/-- What a step can leave of a state, whoever moves. -/
inductive StepEffect (s : State) : State → Prop where
  /-- It wrote at most the window and the results, and was no enabled EV.TICK. -/
  | windowOnly (g : Window) (rs : List Item) (hn : ¬ (s.nextMove.1 = .tick ∧ s.tickEnabled)) :
      StepEffect s { s.nextMove.2 with gt := g, results := s.results ++ rs }
  /-- FG issued a command, which had its effect. -/
  | issued {c : Command} {cs : List Command} {i : Instr} {t : State} (hm : s.nextMove.1 = .issue) (hc : s.Clean)
      (hp : s.program = c :: cs) (hd : decodeCommand c = .ok i) (he : Effect i { s.nextMove.2 with program := cs } t) :
      StepEffect s t
  /-- FG issued an illegal command. -/
  | illegal (cs : List Command) (hm : s.nextMove.1 = .issue) (hc : s.Clean) :
      StepEffect s { s.nextMove.2 with program := cs, fault := 1 }
  /-- EV.TICK rolled over. -/
  | rolledOver (hm : s.nextMove.1 = .tick) (he : s.tickEnabled) (ht : s.ticks = 9999) :
      StepEffect s { s.nextMove.2 with ticks := 0, ovr := s.ovr || s.rpend, rpend := true }
  /-- EV.TICK advanced TICKS. -/
  | ticked (hm : s.nextMove.1 = .tick) (ht : s.ticks ≠ 9999) :
      StepEffect s { s.nextMove.2 with ticks := s.ticks + 1 }
  /-- EV.ROLLOVER serviced a pending rollover. -/
  | serviced (hm : s.nextMove.1 = .rollover) (he : s.rolloverEnabled) :
      StepEffect s { s.nextMove.2 with seconds := s.seconds + 1, rpend := false }
  /-- EV.RESET. -/
  | reset (hm : s.nextMove.1 = .reset) : StepEffect s s.nextMove.2.evReset

/-- A move that writes at most the window and the results has the first of these effects. -/
theorem StepEffect.of_window {s t : State} (hn : ¬ (s.nextMove.1 = .tick ∧ s.tickEnabled)) (g : Window) (rs : List Item)
    (ht : t = { s.nextMove.2 with gt := g, results := s.nextMove.2.results ++ rs }) : StepEffect s t := by
  rw [ht, s.nextMove_results]
  exact .windowOnly g rs hn

/-- So has one that changes nothing. -/
theorem StepEffect.of_eq {s t : State} (hn : ¬ (s.nextMove.1 = .tick ∧ s.tickEnabled)) (ht : t = s.nextMove.2) :
    StepEffect s t :=
  .of_window hn s.nextMove.2.gt [] (by rw [ht, List.append_nil])

/-- Every step that answers a next state has one of these effects. -/
theorem stepEffect_of_step {s t : State} (h : step s = .next t) : StepEffect s t := by
  have hclean : s.nextMove.2.Clean ↔ s.Clean := by simp [State.Clean]
  have htick : s.nextMove.2.tickEnabled ↔ s.tickEnabled := by simp [State.tickEnabled]
  have hservice : s.nextMove.2.rolloverEnabled ↔ s.rolloverEnabled := by simp [State.rolloverEnabled, State.irq]
  obtain ⟨hm, hi⟩ | ⟨hm, rfl⟩ | ⟨hm, rfl⟩ | ⟨hm, rfl⟩ | ⟨hm, rfl⟩ | ⟨hm, rfl⟩ | ⟨hm, rfl⟩ := step_cases h
  · obtain e | ⟨hc, c, cs, i, hp, hd, he⟩ | ⟨hc, _, cs, -, -, rfl⟩ := issueCommand_next hi
    · exact .of_eq (by simp [hm]) e
    · exact .issued hm (hclean.mp hc) (s.nextMove_program ▸ hp) hd he
    · exact .illegal cs hm (hclean.mp hc)
  · obtain e | ⟨b, -, -, e⟩ := s.nextMove.2.sampleSeconds_cases
    · exact .of_eq (by simp [hm]) e
    · exact .of_window (by simp [hm]) _ [] (by rw [e, List.append_nil])
  · obtain e | ⟨a, -, -, e⟩ := s.nextMove.2.sampleTicks_cases
    · exact .of_eq (by simp [hm]) e
    · exact .of_window (by simp [hm]) _ [] (by rw [e, List.append_nil])
  · obtain e | ⟨a, b, -, -, e⟩ := s.nextMove.2.completeGetTime_cases
    · exact .of_eq (by simp [hm]) e
    · exact .of_window (by simp [hm]) _ _ e
  · obtain ⟨hn, e⟩ | ⟨he, ht, e⟩ | ⟨-, ht, e⟩ := s.nextMove.2.evTick_cases
    · exact .of_eq (fun hm => hn (htick.mpr hm.2)) e
    · rw [e, s.nextMove_ovr, s.nextMove_rpend]
      exact .rolledOver hm (htick.mp he) (s.nextMove_ticks ▸ ht)
    · rw [e, s.nextMove_ticks]
      exact .ticked hm (s.nextMove_ticks ▸ ht)
  · obtain ⟨-, e⟩ | ⟨he, e⟩ := s.nextMove.2.evRollover_cases
    · exact .of_eq (by simp [hm]) e
    · rw [e, s.nextMove_seconds]
      exact .serviced hm (hservice.mp he)
  · exact .reset hm

/-- Settles O50, by what the step can do. -/
theorem onlyServiceAndSetTimeWriteSeconds : Obligations.OnlyServiceAndSetTimeWriteSeconds := by
  intro s t h hne
  cases stepEffect_of_step h with
  | windowOnly => exact absurd s.nextMove_seconds hne
  | issued hm _ hp hd he =>
    obtain e | ⟨hi, hc⟩ := he.seconds_cases
    · exact absurd (e.trans s.nextMove_seconds) hne
    · exact .inr (.inl ⟨hm, s.nextMove_cfg.symm.trans hc, _, _, _, hp, hd, hi⟩)
  | illegal => exact absurd s.nextMove_seconds hne
  | rolledOver => exact absurd s.nextMove_seconds hne
  | ticked => exact absurd s.nextMove_seconds hne
  | serviced hm he => exact .inl ⟨hm, he.2, rfl⟩
  | reset hm => exact .inr (.inr hm)

/-- Settles O51: outside EV.RESET, CFG and FAULT are written by an issue alone, and that only in a clean state. -/
theorem onlyInitAndResetWriteCfg : Obligations.OnlyInitAndResetWriteCfg := by
  intro s t h hr
  cases stepEffect_of_step h with
  | issued hm hc hp hd he =>
    refine ⟨fun hne => ?_, fun _ => ⟨hc.1, hm⟩⟩
    obtain e | ⟨rfl, hcfg⟩ := he.cfg_cases
    · exact absurd (e.trans s.nextMove_cfg) hne
    · exact ⟨hcfg, hm, _, _, hp, hd⟩
  | illegal _ hm hc => exact ⟨fun hne => absurd s.nextMove_cfg hne, fun _ => ⟨hc.1, hm⟩⟩
  | reset hm => exact absurd hm hr
  | _ => exact ⟨fun hne => absurd s.nextMove_cfg hne, fun hne => absurd s.nextMove_fault hne⟩

/-- Settles O52, by what the step can do. -/
theorem onlyTickSetsPending : Obligations.OnlyTickSetsPending := by
  intro s t h
  cases stepEffect_of_step h with
  | issued hm _ hp hd he =>
    obtain e | ⟨e, hi⟩ := he.rpend_cases
    · simp_all
    · exact ⟨fun _ ht => by simp_all, fun _ _ => .inr (.inr ⟨hm, _, _, _, hp, hd, hi⟩)⟩
  | rolledOver hm _ ht => exact ⟨fun _ _ => ⟨hm, ht, rfl⟩, fun _ hn => Bool.noConfusion hn⟩
  | serviced hm => exact ⟨fun _ ht => Bool.noConfusion ht, fun _ _ => .inl hm⟩
  | reset hm => exact ⟨fun _ ht => Bool.noConfusion ht, fun _ _ => .inr (.inl hm)⟩
  | _ => simp_all

/-! ### One second per rollover -/

/-- SECONDS and the pending rollover together (10_state.md R37). -/
def State.counted (s : State) : Word := s.seconds + (if s.rpend = true then 1 else 0)

/-- Servicing a pending rollover only moves it into SECONDS. -/
theorem State.counted_serviced {s : State} (h : s.rpend = true) :
    { s with seconds := s.seconds + 1, rpend := false }.counted = s.counted := by
  simp [State.counted, h]

/-- A rollover with none pending counts one. -/
theorem State.counted_rolledOver {s : State} (h : s.rpend = false) (tk : Word) (o : Bool) :
    { s with ticks := tk, ovr := o, rpend := true }.counted = s.counted + 1 := by
  simp [State.counted, h]

/-- Choosing the next move counts nothing. -/
@[simp] theorem State.counted_nextMove (s : State) : s.nextMove.2.counted = s.counted := by
  simp [State.counted]

/-- A command that neither starts nor sets the clock counts nothing. -/
theorem Effect.counted_eq {i : Instr} {s t : State} (he : Effect i s t) (hi : i ≠ .mcInit ∧ setsClock i = false) :
    t.counted = s.counted := by
  have hs : t.seconds = s.seconds := he.seconds_cases.resolve_right (by simp [hi.2])
  have hr : t.rpend = s.rpend := he.rpend_cases.resolve_right (by simp [hi.1, hi.2])
  rw [State.counted, State.counted, hs, hr]

/-- Settles O59, by what the step can do: the steps that count nothing keep OVR too. -/
theorem everyUnlostRolloverAddsOneSecond : Obligations.EveryUnlostRolloverAddsOneSecond := by
  intro s t h hr hi rollsOver
  have hkept (hn : ¬ rollsOver) (hc : t.counted = s.counted) (ho : t.ovr = s.ovr) :
      (t.ovr = false → (rollsOver → t.counted = s.counted + 1) ∧ (¬ rollsOver → t.counted = s.counted)) ∧
      (rollsOver → t.ticks = 0) ∧
      (s.ovr = false → t.ovr = true → rollsOver ∧ t.seconds = s.seconds ∧ s.rpend = true ∧ t.rpend = true) :=
    ⟨fun _ => ⟨(absurd · hn), fun _ => hc⟩, (absurd · hn), fun h0 h1 => by rw [ho, h0] at h1; cases h1⟩
  cases stepEffect_of_step h with
  | windowOnly _ _ hn => exact hkept (fun ⟨hm, he, _⟩ => hn ⟨hm, he⟩) s.counted_nextMove s.nextMove_ovr
  | issued hm hc hp hd he =>
    obtain ⟨hovr, -⟩ := he.frame
    refine hkept (fun ⟨hm', _⟩ => Move.noConfusion (hm.symm.trans hm')) ?_ (hovr.trans s.nextMove_ovr)
    exact (he.counted_eq (hi hm hc _ _ _ hp hd)).trans s.counted_nextMove
  | illegal _ hm =>
    exact hkept (fun ⟨hm', _⟩ => Move.noConfusion (hm.symm.trans hm')) s.counted_nextMove s.nextMove_ovr
  | rolledOver hm he ht =>
    have hover : rollsOver := ⟨hm, he, ht⟩
    refine ⟨fun ho => ⟨fun _ => ?_, (absurd hover ·)⟩, fun _ => rfl, fun h0 h1 => ⟨hover, s.nextMove_seconds, ?_, rfl⟩⟩
    · obtain ⟨-, hp⟩ := Bool.or_eq_false_iff.mp ho
      exact (State.counted_rolledOver (s.nextMove_rpend.trans hp) _ _).trans (by rw [s.counted_nextMove]; rfl)
    · simpa [h0] using h1
  | ticked hm ht => exact hkept (fun ⟨_, _, ht'⟩ => ht ht') s.counted_nextMove s.nextMove_ovr
  | serviced hm he =>
    have hrpend : s.rpend = true := (Bool.and_eq_true_iff.mp he.2).2
    exact hkept (fun ⟨hm', _⟩ => Move.noConfusion (hm.symm.trans hm')) (State.counted_serviced hrpend)
      s.nextMove_ovr
  | reset hm => exact absurd hm hr

/-- Without a fault there is no interrupt request where EV.ROLLOVER is not enabled. -/
theorem State.irq_of_not_rolloverEnabled {s : State} (hf : s.fault = 0) (h : ¬ s.rolloverEnabled) : s.irq = false :=
  Bool.eq_false_of_not_eq_true fun hi => h ⟨hf, hi⟩

/-- Without a fault there is no interrupt request behind EV.ROLLOVER (40_clock.md R102). -/
theorem State.evRollover_irq {s : State} (hf : s.fault = 0) : s.evRollover.irq = false := by
  obtain ⟨hn, e⟩ | ⟨-, e⟩ := s.evRollover_cases <;> rw [e]
  · exact State.irq_of_not_rolloverEnabled hf hn
  · exact Bool.and_false s.ien

/-- Settles O56: fairness brings the service, or a point at which it is not enabled. -/
theorem fairServiceEndsRequest : Obligations.FairServiceEndsRequest := by
  intro σ hσ hfair hf n
  obtain ⟨m, hnm, hne | hm⟩ := hfair n
  · exact ⟨m, hnm, State.irq_of_not_rolloverEnabled (hf m) hne⟩
  · have hs : step (σ m) = .next (σ m).nextMove.2.evRollover := by rw [step, hm, takeMove]
    have ht : σ (m + 1) = (σ m).nextMove.2.evRollover := Host.Outcome.next.inj ((hσ m).symm.trans hs)
    refine ⟨m + 1, Nat.le_succ_of_le hnm, ?_⟩
    rw [ht]
    exact State.evRollover_irq ((σ m).nextMove_fault.trans (hf m))

end Sys2Proof.Machine
end

section
/-! LEMMAS AND PROOFS. What the commands leave alone and what their results depend on: the frame of the clock's
commands, the computing commands as functions of their operands, and OVR, which no rule reads (10_state.md R29;
20_memory.md R57). -/

namespace Sys2Proof.Machine

/-! ### Frames and results -/

/-- A command that sets the clock writes neither CFG nor the window (40_clock.md R106; 42_offset.md R156). -/
theorem Effect.setsClock_frame {i : Instr} {s t : State} (he : Effect i s t) (hi : setsClock i = true) :
    t.cfg = s.cfg ∧ t.gt = s.gt := by
  cases he with
  | configured hm => rw [hm] at hi; cases hi
  | windowed hm => rw [hm] at hi; cases hi
  | _ => simp

/-- What an issued command that asks for a configured clock leaves: its effect, or Fault(2). -/
theorem perform_requireInit_next {s t : State} {f : State → State}
    (h : s.perform (fun s => s.requireInit f) = .next t) : t = f s ∨ t = { s with fault := 2 } := by
  obtain ⟨hc, -⟩ := State.perform_next h
  obtain hcfg | hcfg := Bool.eq_false_or_eq_true s.cfg
  · exact .inl (Host.Outcome.next.inj (h.symm.trans (State.perform_requireInit_of_cfg hc hcfg f)))
  · exact .inr (Host.Outcome.next.inj (h.symm.trans (State.perform_requireInit_of_not_cfg hc hcfg f)))

/-- MC.INIT leaves the counters, the window and the results (40_clock.md R100). -/
theorem exec_mcInit_frame {s t : State} (h : exec .mcInit s = .next t) :
    t.seconds = s.seconds ∧ t.ticks = s.ticks ∧ t.gt = s.gt ∧ t.results = s.results := by
  obtain ⟨hc, -⟩ := exec_cases h
  obtain hcfg | hcfg := Bool.eq_false_or_eq_true s.cfg
  · obtain rfl := Host.Outcome.next.inj (h.symm.trans (exec_mcInit_of_cfg hc hcfg))
    exact ⟨rfl, rfl, rfl, rfl⟩
  · obtain rfl := Host.Outcome.next.inj (h.symm.trans (exec_mcInit_of_not_cfg hc hcfg))
    exact ⟨rfl, rfl, rfl, rfl⟩

/-- Settles O54: the common frame by the command's effect, the rest by the command. -/
theorem clockCommandsFrame : Obligations.ClockCommandsFrame := by
  intro i s t h
  obtain ⟨-, he⟩ := exec_cases h
  obtain ⟨hovr, hprogram, hsched, hdraws⟩ := he.frame
  refine ⟨hovr, hprogram, hsched, hdraws, ?_, ?_, ?_, ?_, he.setsClock_frame⟩
  · rintro rfl
    exact exec_mcInit_frame h
  · rintro rfl
    obtain rfl | rfl := perform_requireInit_next h <;> exact ⟨rfl, rfl⟩
  · rintro rfl
    obtain rfl | rfl := perform_requireInit_next h <;> rfl
  · rintro sec usec rfl
    obtain rfl | rfl := perform_requireInit_next h <;> exact ⟨rfl, rfl, rfl⟩

/-- The items a computing command returns; none for the TS.PARSE that faults. The other commands stand for none. -/
def returnedItems : Instr → Option (List Item)
  | .tsParse ts => if ts.length = Config.tsBytes then some (wordItems [be32 ts 0, be32 ts 4]) else none
  | .tsSerialize sec frac => some [.bytes (timestampBytes ⟨sec, frac⟩)]
  | .pktParse n p => some (wordItems (if n = Config.pktBytes then 1 :: packetWords (packetOf p) else [0]))
  | .cvM2f u => some (wordItems [m2f u])
  | .cvF2m x => some (wordItems [f2m x])
  | .cvToNtp wsec wusec utc => some (wordItems [(toNtp wsec wusec utc).sec, (toNtp wsec wusec utc).frac])
  | .ocDiff aSec aFrac bSec bFrac =>
    some (wordItems [(diff ⟨aSec, aFrac⟩ ⟨bSec, bFrac⟩).sec, (diff ⟨aSec, aFrac⟩ ⟨bSec, bFrac⟩).frac])
  | .ocOffset t1s t1f t2s t2f t3s t3f t4s t4f =>
    some (wordItems [(offsetOf ⟨t1s, t1f⟩ ⟨t2s, t2f⟩ ⟨t3s, t3f⟩ ⟨t4s, t4f⟩).1,
      (offsetOf ⟨t1s, t1f⟩ ⟨t2s, t2f⟩ ⟨t3s, t3f⟩ ⟨t4s, t4f⟩).2])
  | .ocApplyCalc t4s t4f osec ousec utc =>
    some (wordItems [(applyCalc ⟨t4s, t4f⟩ osec ousec utc).1, (applyCalc ⟨t4s, t4f⟩ osec ousec utc).2])
  | .mcInit => none
  | .mcGetTime => none
  | .mcSetTime _ _ => none
  | .mcNowSeconds => none
  | .ocApply _ _ _ _ _ => none

/-- TS.SERIALIZE returns the bytes of the timestamp (41_wire.md R131). -/
theorem exec_tsSerialize {s : State} (h : s.Clean) (sec frac : Word) :
    exec (.tsSerialize sec frac) s = .next (s.respond [.bytes (timestampBytes ⟨sec, frac⟩)]) := by
  rw [exec, execTsSerialize, State.perform_of_clean h]

/-- Where it may be issued a computing command returns those items, or is the TS.PARSE that faults. -/
theorem exec_of_isPure {i : Instr} {s : State} (hi : isPure i = true) (hwf : i.wellFormed = true) (h : s.Clean) :
    (∃ rs, returnedItems i = some rs ∧ exec i s = .next (s.respond rs)) ∨
    (returnedItems i = none ∧ exec i s = .next { s with fault := 4 } ∧ ∃ ts, i = .tsParse ts ∧ ts.length ≠ 8) := by
  cases i with
  | tsParse ts =>
    by_cases hl : ts.length = Config.tsBytes
    · exact .inl ⟨_, if_pos hl, exec_tsParse_of_length h hl⟩
    · exact .inr ⟨if_neg hl, exec_tsParse_of_length_ne h hl, ts, rfl, hl⟩
  | tsSerialize sec frac => exact .inl ⟨_, rfl, exec_tsSerialize h sec frac⟩
  | pktParse n p =>
    have hl : p.length = n.toNat := beq_iff_eq.mp hwf
    refine .inl ⟨_, rfl, ?_⟩
    by_cases hn : n = Config.pktBytes
    · subst hn
      exact exec_pktParse_of_length h hl
    · rw [if_neg hn]
      exact exec_pktParse_of_length_ne h hl hn
  | cvM2f u => exact .inl ⟨_, rfl, exec_cvM2f h u⟩
  | cvF2m x => exact .inl ⟨_, rfl, exec_cvF2m h x⟩
  | cvToNtp wsec wusec utc => exact .inl ⟨_, rfl, exec_cvToNtp h wsec wusec utc⟩
  | ocDiff aSec aFrac bSec bFrac => exact .inl ⟨_, rfl, exec_ocDiff h aSec aFrac bSec bFrac⟩
  | ocOffset t1s t1f t2s t2f t3s t3f t4s t4f => exact .inl ⟨_, rfl, exec_ocOffset h t1s t1f t2s t2f t3s t3f t4s t4f⟩
  | ocApplyCalc t4s t4f osec ousec utc => exact .inl ⟨_, rfl, exec_ocApplyCalc h t4s t4f osec ousec utc⟩
  | _ => cases hi

/-- Settles O53, with `returnedItems` for the function. -/
theorem computingCommandsArePure : Obligations.ComputingCommandsArePure := by
  refine ⟨returnedItems, fun i s hi hwf h => ?_⟩
  obtain ⟨rs, hrs, e⟩ | ⟨hnone, hrest⟩ := exec_of_isPure hi hwf h
  · refine ⟨fun rs' hrs' => ?_, fun hn => absurd (hrs.symm.trans hn) (Option.some_ne_none rs)⟩
    obtain rfl := Option.some.inj (hrs.symm.trans hrs')
    exact e
  · exact ⟨fun rs hrs => absurd (hrs.symm.trans hnone) (Option.some_ne_none rs), fun _ => hrest⟩

/-! ### The ghost bit -/

/-- What a step answers, with OVR written to `b` in a next state. -/
def withOvr (b : Bool) : Result → Result
  | .next t => .next { t with ovr := b }
  | .fault r => .fault r
  | .refused r => .refused r

/-- An effect that neither reads nor writes OVR. -/
def IgnoresOvr (f : State → State) : Prop := ∀ s b, f { s with ovr := b } = { f s with ovr := b }

/-- Raising a fault ignores OVR. -/
theorem ignoresOvr_raise (c : FaultCode) : IgnoresOvr (State.raise · c) := by
  intro s b
  simp only [State.raise]
  split <;> rfl

/-- So does the check that the clock is configured. -/
theorem IgnoresOvr.requireInit {f : State → State} (hf : IgnoresOvr f) : IgnoresOvr (State.requireInit · f) := by
  intro s b
  simp only [State.requireInit]
  split
  · exact hf s b
  · exact ignoresOvr_raise .uninit s b

/-- An issued command whose effect ignores OVR answers alike. -/
theorem IgnoresOvr.perform {f : State → State} (hf : IgnoresOvr f) (s : State) (b : Bool) :
    State.perform { s with ovr := b } f = withOvr b (s.perform f) := by
  by_cases h : s.fault = 0
  · cases hg : s.gt with
    | closed => simp [State.perform, h, hg, withOvr, ← hf s b]
    | opened x y => simp [State.perform, h, hg, withOvr]
  · simp only [State.perform, if_neg h, withOvr]

/-- Every well-formed command is performed, with an effect that ignores OVR. -/
theorem exec_eq_perform_ignoresOvr {i : Instr} (h : i.wellFormed = true) :
    ∃ f, IgnoresOvr f ∧ ∀ s, exec i s = s.perform f := by
  cases i with
  | mcInit =>
    refine ⟨_, fun s b => ?_, fun _ => rfl⟩
    dsimp only
    split
    · exact ignoresOvr_raise .doubleInit s b
    · rfl
  | mcGetTime => exact ⟨_, .requireInit fun _ _ => rfl, fun _ => rfl⟩
  | mcSetTime => exact ⟨_, .requireInit fun _ _ => rfl, fun _ => rfl⟩
  | mcNowSeconds => exact ⟨_, .requireInit fun _ _ => rfl, fun _ => rfl⟩
  | ocApply => exact ⟨_, .requireInit fun _ _ => rfl, fun _ => rfl⟩
  | tsParse ts =>
    refine ⟨_, fun s b => ?_, fun _ => rfl⟩
    dsimp only
    split
    · rfl
    · exact ignoresOvr_raise .operandLen s b
  | pktParse n p =>
    refine ⟨_, fun s b => ?_, fun _ => if_pos (beq_iff_eq.mp h)⟩
    dsimp only
    split <;> rfl
  | _ => exact ⟨_, fun _ _ => by rfl, fun _ => rfl⟩

/-- Every command answers alike. -/
theorem exec_withOvr (i : Instr) (s : State) (b : Bool) : exec i { s with ovr := b } = withOvr b (exec i s) := by
  by_cases hwf : i.wellFormed = true
  · obtain ⟨f, hf, he⟩ := exec_eq_perform_ignoresOvr hwf
    rw [he, he, hf.perform]
  · cases i with
    | pktParse n p =>
      have hl : p.length ≠ n.toNat := mt beq_iff_eq.mpr hwf
      simp only [exec, execPktParse, if_neg hl, withOvr]
    | _ => exact absurd rfl hwf

/-- So does the issue of FG's next command. -/
theorem issueCommand_withOvr (s : State) (b : Bool) :
    issueCommand { s with ovr := b } = withOvr b (issueCommand s) := by
  unfold issueCommand
  dsimp only
  split
  · split
    · rfl
    · rename_i c cs _
      split
      · exact exec_withOvr _ { s with program := cs } b
      · exact congrArg _ (ignoresOvr_raise .illegalCmd { s with program := cs } b)
      · rfl
  · rfl

/-- FG's samples and the completion ignore OVR, and so does the service. -/
theorem ignoresOvr_sampleSeconds : IgnoresOvr State.sampleSeconds := by
  intro s b
  simp only [State.sampleSeconds]
  split
  · split <;> rfl
  · rfl

theorem ignoresOvr_sampleTicks : IgnoresOvr State.sampleTicks := by
  intro s b
  simp only [State.sampleTicks]
  split
  · split <;> rfl
  · rfl

theorem ignoresOvr_completeGetTime : IgnoresOvr State.completeGetTime := by
  intro s b
  simp only [State.completeGetTime]
  split
  · split <;> rfl
  · rfl

theorem ignoresOvr_evRollover : IgnoresOvr State.evRollover := by
  intro s b
  obtain ⟨hn, e⟩ | ⟨he, e⟩ := s.evRollover_cases <;> rw [e]
  · exact State.evRollover_of_not_enabled hn
  · exact State.evRollover_of_enabled he

/-- EV.TICK writes OVR at a rollover, but nothing else it does depends on OVR. -/
theorem evTick_withOvr (s : State) (b : Bool) :
    ∃ b', State.evTick { s with ovr := b } = { s.evTick with ovr := b' } := by
  obtain ⟨hn, e⟩ | ⟨he, ht, e⟩ | ⟨he, ht, e⟩ := s.evTick_cases <;> rw [e]
  · exact ⟨b, State.evTick_of_not_enabled hn⟩
  · exact ⟨b || s.rpend, State.evTick_of_atRollover he ht⟩
  · exact ⟨b, State.evTick_of_not_atRollover he ht⟩

/-- Every move answers alike, but for what it writes to OVR. -/
theorem takeMove_withOvr (m : Move) (s : State) (b : Bool) :
    ∃ b', takeMove m { s with ovr := b } = withOvr b' (takeMove m s) := by
  cases m with
  | issue => exact ⟨b, issueCommand_withOvr s b⟩
  | sampleS => exact ⟨b, congrArg _ (ignoresOvr_sampleSeconds s b)⟩
  | sampleT => exact ⟨b, congrArg _ (ignoresOvr_sampleTicks s b)⟩
  | complete => exact ⟨b, congrArg _ (ignoresOvr_completeGetTime s b)⟩
  | tick =>
    obtain ⟨b', h⟩ := evTick_withOvr s b
    exact ⟨b', congrArg _ h⟩
  | rollover => exact ⟨b, congrArg _ (ignoresOvr_evRollover s b)⟩
  | reset => exact ⟨false, rfl⟩

/-- The choice of the next move does not read OVR. -/
theorem nextMove_withOvr (s : State) (b : Bool) :
    State.nextMove { s with ovr := b } = (s.nextMove.1, { s.nextMove.2 with ovr := b }) := by
  simp only [State.nextMove]
  split <;> rfl

/-- Settles O55: the choice, then the move. -/
theorem ghostBitChangesNoBehaviour : Obligations.GhostBitChangesNoBehaviour := by
  intro s b
  obtain ⟨b', h⟩ := takeMove_withOvr s.nextMove.1 s.nextMove.2 b
  have hstep : step { s with ovr := b } = withOvr b' (step s) := by
    rw [step, nextMove_withOvr, step, h]
  rw [hstep]
  exact ⟨fun t ht => ⟨b', by rw [ht]; rfl⟩, fun r hr => by rw [hr]; rfl⟩

end Sys2Proof.Machine
end

section
/-! LEMMAS AND PROOFS. The arithmetic of the commands over all operands: the bytes of a timestamp, the range and the
error of the two conversions and of their round trip, the 64-bit difference, and the offset's carry (41_wire.md R130,
R131; 42_offset.md R151, R153 to R155; 43_fixedpoint.md R171, R173, R174, R176). -/

namespace Sys2Proof.Machine

/-! ### The bytes of a timestamp -/

/-- One byte of a word, as a number. -/
theorem extractByte_toNat (v : Word) (k : Nat) : (v.extractLsb' k 8).toNat = v.toNat / 2 ^ k % 256 := by
  rw [BitVec.extractLsb'_toNat, Nat.shiftRight_eq_div_pow]

/-- A word's bytes as numbers, the most significant first (00_scope.md R13). -/
theorem bytesBE32_toNat (v : Word) :
    (bytesBE32 v).map BitVec.toNat =
      [v.toNat / 2 ^ 24, v.toNat / 2 ^ 16 % 256, v.toNat / 2 ^ 8 % 256, v.toNat % 256] := by
  have hv := v.isLt
  have htop : v.toNat / 2 ^ 24 % 256 = v.toNat / 2 ^ 24 := Nat.mod_eq_of_lt (by omega)
  simp only [bytesBE32, List.map_cons, List.map_nil, extractByte_toNat, htop, Nat.pow_zero, Nat.div_one]

/-- Four bytes that are a word's are read back as that word (00_scope.md R13). -/
theorem be32_of_bytes {p : List Byte} {i : Nat} {v : Word}
    (h : [byteAt p i, byteAt p (i + 1), byteAt p (i + 2), byteAt p (i + 3)] = bytesBE32 v) : be32 p i = v := by
  simp only [bytesBE32, List.cons.injEq, and_true] at h
  obtain ⟨h0, h1, h2, h3⟩ := h
  have hv := v.isLt
  apply BitVec.eq_of_toNat_eq
  rw [be32_toNat, h0, h1, h2, h3]
  simp only [extractByte_toNat]
  omega

/-- Four bytes read as a word are that word's bytes (00_scope.md R13). -/
theorem bytesBE32_be32 (p : List Byte) (i : Nat) :
    bytesBE32 (be32 p i) = [byteAt p i, byteAt p (i + 1), byteAt p (i + 2), byteAt p (i + 3)] := by
  have h0 := (byteAt p i).isLt
  have h1 := (byteAt p (i + 1)).isLt
  have h2 := (byteAt p (i + 2)).isLt
  have h3 := (byteAt p (i + 3)).isLt
  simp only [bytesBE32, List.cons.injEq, and_true, ← BitVec.toNat_inj, extractByte_toNat, be32_toNat]
  omega

/-- Settles O20: the four bytes of a word and the word determine each other. -/
theorem tsSerializeInvertsParse : Obligations.TsSerializeInvertsParse := by
  intro s h
  refine ⟨fun sec frac => ⟨timestampBytes ⟨sec, frac⟩, ?_, exec_tsSerialize h sec frac, ?_⟩, fun b hb => ?_⟩
  · rw [timestampBytes, List.map_append, bytesBE32_toNat, bytesBE32_toNat]
    rfl
  · have hsec : be32 (timestampBytes ⟨sec, frac⟩) 0 = sec := be32_of_bytes rfl
    have hfrac : be32 (timestampBytes ⟨sec, frac⟩) 4 = frac := be32_of_bytes rfl
    rw [exec_tsParse_of_length h rfl, hsec, hfrac]
    rfl
  · refine ⟨be32 b 0, be32 b 4, exec_tsParse_of_length h hb, ?_⟩
    have hbytes : timestampBytes ⟨be32 b 0, be32 b 4⟩ = b := by
      rw [timestampBytes, bytesBE32_be32, bytesBE32_be32]
      match b, hb with
      | [_, _, _, _, _, _, _, _], _ => rfl
    rw [exec_tsSerialize h, hbytes]
    rfl

/-! ### Microseconds to a fraction -/

/-- Where the products of CV.M2F first wrap (43_fixedpoint.md R171). -/
theorem mul_toNat_eq_iff {c u : Word} : (c * u).toNat = c.toNat * u.toNat ↔ c.toNat * u.toNat < 2 ^ 32 := by
  rw [BitVec.toNat_mul]
  omega

/-- Up to 999999 nothing of CV.M2F wraps (43_fixedpoint.md R171). -/
theorem m2f_toNat_of_le {u : Word} (h : u.toNat ≤ 999999) :
    (m2f u).toNat = 4294 * u.toNat + 1981 * u.toNat / 2 ^ 11 + 2911 * u.toNat / 2 ^ 28 := by
  have h1981 : 1981 * u.toNat % 2 ^ 32 = 1981 * u.toNat := Nat.mod_eq_of_lt (by omega)
  have h2911 : 2911 * u.toNat % 2 ^ 32 = 2911 * u.toNat := Nat.mod_eq_of_lt (by omega)
  rw [m2f_toNat, h1981, h2911]
  exact Nat.mod_eq_of_lt (by omega)

/-- The exact fraction is `4294 * u + 1981 * u / 2^11 + 347 * u / 32000000`. The second correction `b` of CV.M2F is at
most its last term and the `r / 2^11` that the shift of its second term dropped (43_fixedpoint.md R171): where nothing
was dropped, `u` is a multiple of 2048. -/
theorem m2f_correction_le {u b r : Nat} (h : u ≤ 999999) (hb : b = 2911 * u / 2 ^ 28) (hr : r = 1981 * u % 2 ^ 11) :
    32000000 * b ≤ 347 * u + 15625 * r := by
  obtain rfl | hpos := Nat.eq_zero_or_pos r
  · obtain ⟨k, rfl⟩ : ∃ k, u = 2048 * k := ⟨u / 2048, by omega⟩
    have hk : b = 0 ∨ 45 * b < k := by omega
    omega
  · by_contra hlt
    have hlast : b = 10 ∧ r = 1 := by omega
    have hu : 922141 ≤ u ∧ u ≤ 922145 := by omega
    omega

/-- The fraction is the exact one's floor or one less (43_fixedpoint.md R171). -/
theorem m2f_floor {u : Word} (h : u.toNat ≤ 999999) :
    (m2f u).toNat = u.toNat * 2 ^ 32 / 10 ^ 6 ∨ (m2f u).toNat + 1 = u.toNat * 2 ^ 32 / 10 ^ 6 := by
  have hle := m2f_correction_le h rfl rfl
  rw [m2f_toNat_of_le h]
  omega

/-- Settles O23: without a wrap the formula is a sum of quotients, within one of the exact quotient. -/
theorem microsToFractionIsFloorOrOneLess : Obligations.MicrosToFractionIsFloorOrOneLess := by
  refine ⟨fun u h => ⟨m2f_toNat_of_le h, ?_, m2f_floor h⟩, fun u => ⟨?_, ?_, ?_⟩⟩
  · have h1981 : 1981 * u.toNat / 2 ^ 11 ≤ 967284 := by omega
    have h2911 : 2911 * u.toNat / 2 ^ 28 ≤ 10 := by omega
    rw [m2f_toNat_of_le h]
    omega
  · exact (mul_toNat_eq_iff (c := 4294)).trans (show 4294 * u.toNat < 2 ^ 32 ↔ _ by omega)
  · exact (mul_toNat_eq_iff (c := 2911)).trans (show 2911 * u.toNat < 2 ^ 32 ↔ _ by omega)
  · exact (mul_toNat_eq_iff (c := 1981)).trans (show 1981 * u.toNat < 2 ^ 32 ↔ _ by omega)

/-! ### A fraction to microseconds -/

/-- Settles O24: the subtraction, written as a sum, does not wrap. -/
theorem fractionToMicrosFormula : Obligations.FractionToMicrosFormula :=
  fun _ x h => ⟨f2m x, f2m_toNat_add x, exec_cvF2m h x⟩

/-- The microseconds are within 380 of the exact floor (43_fixedpoint.md R173). -/
theorem f2m_error (x : Word) :
    (f2m x).toNat ≤ x.toNat * 10 ^ 6 / 2 ^ 32 + 380 ∧ x.toNat * 10 ^ 6 / 2 ^ 32 ≤ (f2m x).toNat + 380 := by
  have hsum := f2m_toNat_add x
  omega

/-- Settles O25: the bounds from that sum, the two extremes by evaluation. -/
theorem fractionToMicrosRangeAndError : Obligations.FractionToMicrosRangeAndError :=
  ⟨fun x => ⟨f2m_toNat_le x, f2m_error x⟩, by decide, by decide⟩

/-- Settles O26: `x >> 12` grows by at most one, and the subtrahend grows by 759 exactly where `x + 2^25` reaches a
multiple of 2^26, of which there are 64 below 2^32. -/
theorem fractionToMicrosFallsAtSixtyFourPoints : Obligations.FractionToMicrosFallsAtSixtyFourPoints := by
  intro x y hxy
  have hx := f2m_toNat_add x
  have hy := f2m_toNat_add y
  have hlt := y.isLt
  refine ⟨fun ⟨k, _, _, hk⟩ => by omega, fun hnone => ?_⟩
  have hk : (y.toNat + 2 ^ 25) % 2 ^ 26 ≠ 0 :=
    fun h0 => hnone ⟨(y.toNat + 2 ^ 25) / 2 ^ 26, by omega, by omega, by omega⟩
  omega

/-! ### The round trip -/

/-- The round trip's error lies in [-380, 379] (43_fixedpoint.md R174). -/
theorem roundTrip_error {u : Word} (h : u.toNat ≤ 999999) :
    u.toNat ≤ (f2m (m2f u)).toNat + 380 ∧ (f2m (m2f u)).toNat ≤ u.toNat + 379 := by
  have hfrac := m2f_toNat_of_le h
  have hsum := f2m_toNat_add (m2f u)
  omega

/-- On the clock's grid the error is one smaller either way (43_fixedpoint.md R174): with `a` hundreds of microseconds
and `d` the block of 2^26 the fraction lies in, `8 * a` and `1250 * d - 625` differ by an odd number, so that the
fraction does not come close to the block's ends. -/
theorem roundTrip_error_of_grid {u : Word} (h : u.toNat ≤ 999999) (hgrid : u.toNat % 100 = 0) :
    u.toNat ≤ (f2m (m2f u)).toNat + 379 ∧ (f2m (m2f u)).toNat ≤ u.toNat + 378 := by
  have hfrac := m2f_toNat_of_le h
  have hsum := f2m_toNat_add (m2f u)
  obtain ⟨a, ha⟩ : ∃ a, u.toNat = 100 * a := ⟨u.toNat / 100, by omega⟩
  generalize hd : ((m2f u).toNat / 2 ^ 10 + 32768) / 2 ^ 16 = d at hsum
  have hlow : 1250 * d ≤ 8 * a + 624 := by omega
  have hhigh : 8 * a ≤ 1250 * d + 624 := by omega
  omega

/-- Below 42 the error is at most 1 (43_fixedpoint.md R174). -/
theorem roundTrip_error_of_lt {u : Word} (h : u.toNat < 42) :
    u.toNat ≤ (f2m (m2f u)).toNat + 1 ∧ (f2m (m2f u)).toNat ≤ u.toNat + 1 := by
  have hfrac := m2f_toNat_of_le (u := u) (by omega)
  have hsum := f2m_toNat_add (m2f u)
  have hblock : ((m2f u).toNat / 2 ^ 10 + 32768) / 2 ^ 16 = 0 := by omega
  omega

/-- Settles O27: the bounds by the three lemmas above, what they are taken at by evaluation. -/
theorem roundTripErrorIsBounded : Obligations.RoundTripErrorIsBounded :=
  ⟨fun _ => roundTrip_error, by decide, by decide, fun _ => roundTrip_error_of_grid, fun _ => roundTrip_error_of_lt,
    by decide⟩

/-! ### Offset arithmetic -/

/-- The difference as a number of 64 bits: exact without a borrow, one unit low with one (42_offset.md R151). -/
theorem diff_toInt (a b : Timestamp) :
    (((diff a b).sec.toNat * 2 ^ 32 + (diff a b).frac.toNat : Nat) : Int) =
      (((b.sec.toNat * 2 ^ 32 + b.frac.toNat : Nat) : Int) - ((a.sec.toNat * 2 ^ 32 + a.frac.toNat : Nat) : Int)
        - (if a.frac.toNat ≤ b.frac.toNat then 0 else 1)) % 2 ^ 64 := by
  have ha := a.frac.isLt
  have hb := b.frac.isLt
  have has := a.sec.isLt
  have hbs := b.sec.isLt
  by_cases hle : a.frac.toNat ≤ b.frac.toNat
  · rw [diff_of_le hle, if_pos hle]
    simp only [BitVec.toNat_sub]
    omega
  · rw [diff_of_lt (Nat.lt_of_not_le hle), if_neg hle]
    have hone : (1 : Word).toNat = 1 := rfl
    simp only [BitVec.toNat_sub, BitVec.toNat_not, hone]
    omega

/-- Settles O30, by `diff_toInt`. -/
theorem diffIsExactOrOneUnitLow : Obligations.DiffIsExactOrOneUnitLow :=
  fun _ aSec aFrac bSec bFrac h =>
    ⟨_, _, exec_ocDiff h aSec aFrac bSec bFrac, diff_toInt ⟨aSec, aFrac⟩ ⟨bSec, bFrac⟩⟩

/-- One carry brings less than two seconds below one (42_offset.md R153). -/
theorem carryOnce_toNat_lt {sec usec : Word} (h : usec.toNat < 2000000) : (carryOnce sec usec).2.toNat < 1000000 := by
  by_cases hlt : usec.toNat < 1000000
  · rw [carryOnce_of_lt hlt]
    exact hlt
  · have hle : 1000000 ≤ usec.toNat := Nat.le_of_not_lt hlt
    rw [carryOnce_of_le hle, BitVec.toNat_sub_of_le hle]
    exact (Nat.sub_lt_iff_lt_add hle).mpr h

/-- The two microsecond terms of an offset stay below two seconds together (42_offset.md R153). -/
theorem f2m_add_f2m_toNat_le (x y : Word) : (f2m x).toNat + (f2m y).toNat ≤ 1999998 :=
  Nat.add_le_add (f2m_toNat_le x) (f2m_toNat_le y)

/-- An offset's microseconds are half of less than a second (42_offset.md R153). -/
theorem offsetOf_usec_le (t1 t2 t3 t4 : Timestamp) : (offsetOf t1 t2 t3 t4).2.toNat ≤ 499999 := by
  have hle := f2m_add_f2m_toNat_le (diff t1 t2).frac (diff t4 t3).frac
  by_cases hlt : (f2m (diff t1 t2).frac).toNat + (f2m (diff t4 t3).frac).toNat < 1000000
  · rw [(offsetOf_of_lt hlt).2]
    omega
  · rw [(offsetOf_of_le (Nat.le_of_not_lt hlt)).2]
    omega

/-- Settles O32: two terms of at most 999999 make less than two seconds, so one carry is enough. -/
theorem offsetCarriesAtMostOnce : Obligations.OffsetCarriesAtMostOnce := by
  refine ⟨fun x y sec => ⟨f2m_toNat_le x, f2m_add_f2m_toNat x y, f2m_add_f2m_toNat_le x y, carryOnce_toNat_lt ?_⟩,
    fun s t1s t1f t2s t2f t3s t3f t4s t4f h =>
      ⟨_, _, exec_ocOffset h t1s t1f t2s t2f t3s t3f t4s t4f, offsetOf_usec_le _ _ _ _⟩⟩
  rw [f2m_add_f2m_toNat]
  exact Nat.lt_of_le_of_lt (f2m_add_f2m_toNat_le x y) (by decide)

/-- Settles O33: the seconds sum to -3, and half of that toward zero is -1. -/
theorem offsetHalvingDropsHalfSecond : Obligations.OffsetHalvingDropsHalfSecond := by
  intro s h
  have hoffset : offsetOf ⟨100, 0⟩ ⟨100, 0⟩ ⟨100, 0⟩ ⟨103, 0⟩ = (0xFFFFFFFF, 0) := by decide
  rw [exec_ocOffset h, hoffset]
  rfl

/-- Settles O34, by whether the microseconds carry. -/
theorem applyCalcNormalisesOnce : Obligations.ApplyCalcNormalisesOnce := by
  intro s t4s t4f osec ousec utc h
  have hu : (f2m (Timestamp.mk t4s t4f).frac).toNat ≤ 999999 := f2m_toNat_le t4f
  refine ⟨f2m t4f, _, _, exec_cvF2m h t4f, exec_ocApplyCalc h t4s t4f osec ousec utc, fun hlt => ?_, fun hle => ?_,
    fun ho => carryOnce_toNat_lt ?_⟩
  · rw [applyCalc, carryOnce_of_lt hlt]
    exact ⟨rfl, rfl⟩
  · rw [applyCalc, carryOnce_of_le hle]
    refine ⟨rfl, ?_⟩
    rw [BitVec.toNat_sub_of_le hle]
    exact Nat.sub_add_cancel hle
  · rw [BitVec.toNat_add_of_lt (by omega)]
    omega

/-- With a zero offset the corrected time of an NTP timestamp is the wall clock's seconds again (43_fixedpoint.md R176).
-/
theorem applyCalc_toNtp (wsec wusec utc : Word) :
    applyCalc ⟨(toNtp wsec wusec utc).sec, m2f wusec⟩ 0 0 utc = (wsec, f2m (m2f wusec)) := by
  have hu := f2m_toNat_le (m2f wusec)
  have hsec : (toNtp wsec wusec utc).sec - Config.ntpUnixDelta + 0 + utc = wsec := by
    simp [toNtp]
  rw [applyCalc, hsec, add_zero, carryOnce_of_lt (Nat.lt_of_le_of_lt hu (by decide))]

/-- Settles O36: the epoch and the UTC offset cancel, and the microseconds are below one second. -/
theorem applyInvertsToNtp : Obligations.ApplyInvertsToNtp := by
  intro s wsec wusec utc h
  refine ⟨_, _, _, exec_cvToNtp h wsec wusec utc, ?_, rfl, f2m_toNat_le _, roundTrip_error⟩
  rw [exec_ocApplyCalc h, applyCalc_toNtp]
  rfl

end Sys2Proof.Machine
end

section
/-! LEMMAS AND PROOFS. Runs of the clock: reads of it by command and by window, ticks and services under any schedule,
and the straddle (40_clock.md R103 to R109; 10_state.md R37; 70_reset_and_hazards.md R241, R242). -/

namespace Sys2Proof.Machine

/-! ### Runs -/

/-- A run of one more step is a step and a run from there. -/
theorem run_succ_eq_next {n : Nat} {s t : State} :
    Host.Core.run Sys2Proof.core (n + 1) s = .next t ↔
      ∃ u, step s = .next u ∧ Host.Core.run Sys2Proof.core n u = .next t := by
  refine ⟨fun h => ?_, fun ⟨u, hu, h⟩ => (run_succ_of_step hu n).trans h⟩
  simp only [Host.Core.run] at h
  split at h
  next u hu => exact ⟨u, hu, h⟩
  · cases h
  · cases h

/-- A run of `m + n` steps goes on from where `m` steps end. -/
theorem run_add {m : Nat} {s t : State} (h : Host.Core.run Sys2Proof.core m s = .next t) (n : Nat) :
    Host.Core.run Sys2Proof.core (m + n) s = Host.Core.run Sys2Proof.core n t := by
  induction m generalizing s with
  | zero =>
    obtain rfl := Host.Outcome.next.inj h
    rw [Nat.zero_add]
  | succ m ih =>
    obtain ⟨u, hu, hr⟩ := run_succ_eq_next.mp h
    rw [Nat.succ_add, run_succ_of_step hu, ih hr]

/-! ### Reads of the clock -/

/-- Settles O13: MC.NOW_SECONDS asks for a configured clock, then returns SECONDS. -/
theorem nowSecondsReturnsSeconds : Obligations.NowSecondsReturnsSeconds :=
  fun _ _ h => ⟨fun hc => State.perform_requireInit_of_cfg h hc _,
    fun hc => State.perform_requireInit_of_not_cfg h hc _,
    fun hc => ⟨_, State.perform_requireInit_of_cfg h hc _, step_sampleS rfl h.1 rfl⟩⟩

/-- Settles O14: each of the four asks for a configured clock first. -/
theorem uninitialisedClockCommandsFault : Obligations.UninitialisedClockCommandsFault := by
  intro s i h hc hi
  obtain rfl | rfl | hset := hi
  · exact State.perform_requireInit_of_not_cfg h hc _
  · exact State.perform_requireInit_of_not_cfg h hc _
  · cases i with
    | mcSetTime => exact State.perform_requireInit_of_not_cfg h hc _
    | ocApply => exact State.perform_requireInit_of_not_cfg h hc _
    | _ => cases hset

section
variable {s : State} {cs : List Command} {ms : List Move}

/-- The command that issues an instruction decodes to it. -/
theorem decodeCommand_encodeCommand {i : Instr} (h : i.wellFormed = true) :
    decodeCommand (encodeCommand i) = .ok i := by
  have hd : decode (encodeCommand i).items = .ok (i, []) := by simpa [encode] using decodeInvertsEncode i [] h
  rw [decodeCommand, hd]

/-- The step of an issue is what the decoded command does. -/
theorem step_issue {c : Command} {i : Instr} (hs : s.sched = .issue :: ms) (hp : s.program = c :: cs) (h : s.Clean)
    (hd : decodeCommand c = .ok i) : step s = exec i { s with program := cs, sched := ms } :=
  (step_eq_of_sched hs).trans (issueCommand_of_ok (s := { s with sched := ms }) h hp hd)

/-- The step that issues MC.GET_TIME opens an empty window (40_clock.md R103). -/
theorem step_getTime (hs : s.sched = .issue :: ms) (hp : s.program = ⟨2, []⟩ :: cs) (h : s.Clean) (hc : s.cfg = true) :
    step s = .next { s with gt := .opened none none, program := cs, sched := ms } :=
  (step_issue hs hp h (decodeCommand_encodeCommand (i := .mcGetTime) rfl)).trans
    (State.perform_requireInit_of_cfg (s := { s with program := cs, sched := ms }) h hc _)

/-- The step that issues MC.SET_TIME overwrites the clock (40_clock.md R106). -/
theorem step_setTime {sec usec : Word} (hs : s.sched = .issue :: ms)
    (hp : s.program = ⟨3, [.word sec, .word usec]⟩ :: cs) (h : s.Clean) (hc : s.cfg = true) :
    step s = .next (State.setTime { s with program := cs, sched := ms } sec usec) :=
  (step_issue hs hp h (decodeCommand_encodeCommand (i := .mcSetTime sec usec) rfl)).trans
    (State.perform_requireInit_of_cfg (s := { s with program := cs, sched := ms }) h hc _)

/-- The rest of an MC.GET_TIME with no step between, the seconds sampled first. -/
theorem run_sampleS_sampleT_complete (hs : s.sched = .sampleS :: .sampleT :: .complete :: ms) (hf : s.fault = 0)
    (hg : s.gt = .opened none none) :
    Host.Core.run Sys2Proof.core 3 s = .next
      { s with gt := .closed, sched := ms, results := s.results ++ [.word s.seconds, .word (s.ticks * 100)] } := by
  refine (run_succ_of_step (step_sampleS hs hf hg) 2).trans ?_
  refine (run_succ_of_step (by exact step_sampleT rfl hf rfl) 1).trans ?_
  exact run_succ_of_step (by exact step_complete rfl hf rfl) 0

/-- The same with the ticks sampled first. -/
theorem run_sampleT_sampleS_complete (hs : s.sched = .sampleT :: .sampleS :: .complete :: ms) (hf : s.fault = 0)
    (hg : s.gt = .opened none none) :
    Host.Core.run Sys2Proof.core 3 s = .next
      { s with gt := .closed, sched := ms, results := s.results ++ [.word s.seconds, .word (s.ticks * 100)] } := by
  refine (run_succ_of_step (step_sampleT hs hf hg) 2).trans ?_
  refine (run_succ_of_step (by exact step_sampleS rfl hf rfl) 1).trans ?_
  exact run_succ_of_step (by exact step_complete rfl hf rfl) 0

end

/-- Settles O15: the samples see the clock MC.SET_TIME wrote, in either order. -/
theorem getTimeReturnsTimeJustSet : Obligations.GetTimeReturnsTimeJustSet := by
  intro s sec usec cs ms h hc
  have htk := s.setTime_ticks_toNat sec usec
  have hus := mul_usPerTick_toNat (t := (s.setTime sec usec).ticks) (by omega)
  refine ⟨_, (s.setTime sec usec).ticks, (s.setTime sec usec).ticks * 100, by rw [hus, htk], by omega, rfl, ?_, ?_⟩
  · refine (run_succ_of_step (by exact step_setTime rfl rfl h hc) 4).trans ?_
    refine (run_succ_of_step (by exact step_getTime rfl rfl h hc) 3).trans ?_
    refine Eq.trans (by exact run_sampleS_sampleT_complete rfl h.1 rfl) ?_
    rw [h.2]
    rfl
  · refine (run_succ_of_step (by exact step_setTime rfl rfl h hc) 4).trans ?_
    refine (run_succ_of_step (by exact step_getTime rfl rfl h hc) 3).trans ?_
    refine Eq.trans (by exact run_sampleT_sampleS_complete rfl h.1 rfl) ?_
    rw [h.2]
    rfl

/-! ### Runs of ticks and services -/

section
variable {s : State}

/-- EV.TICK and EV.ROLLOVER leave a booted clock booted, and the schedule alone. -/
theorem State.evTick_booted (h : s.Booted) : s.evTick.Booted ∧ s.evTick.sched = s.sched := by
  obtain ⟨-, e⟩ | ⟨-, -, e⟩ | ⟨-, -, e⟩ := s.evTick_cases <;> rw [e] <;> exact ⟨h, rfl⟩

theorem State.evRollover_booted (h : s.Booted) : s.evRollover.Booted ∧ s.evRollover.sched = s.sched := by
  obtain ⟨-, e⟩ | ⟨-, e⟩ := s.evRollover_cases <;> rw [e] <;> exact ⟨h, rfl⟩

/-- EV.TICK of a booted clock advances TICKS mod 10000; and where it loses no rollover it counts one second if TICKS
wrapped (40_clock.md R101). -/
theorem State.evTick_counted (h : s.Booted) (htk : s.ticks.toNat ≤ 9999) :
    s.evTick.ticks.toNat = (s.ticks.toNat + 1) % 10000 ∧
    (s.evTick.ovr = false →
      s.ovr = false ∧ s.evTick.counted = s.counted + BitVec.ofNat 32 ((s.ticks.toNat + 1) / 10000)) := by
  obtain ⟨hcfg, hten, -, hf, -⟩ := h
  have he : s.tickEnabled := ⟨hf, hten, hcfg⟩
  by_cases ht : s.atRollover
  · rw [State.evTick_of_atRollover he ht, s.atRollover_iff_toNat.mp ht]
    refine ⟨rfl, fun ho => ?_⟩
    obtain ⟨ho, hp⟩ := Bool.or_eq_false_iff.mp ho
    exact ⟨ho, State.counted_rolledOver hp _ _⟩
  · obtain ⟨hsucc, hle⟩ := succ_ticks_toNat htk ht
    have hcarry : (s.ticks.toNat + 1) / 10000 = 0 := by omega
    rw [State.evTick_of_not_atRollover he ht, hcarry]
    exact ⟨by rw [hsucc]; omega, fun ho => ⟨ho, (add_zero _).symm⟩⟩

/-- EV.ROLLOVER counts nothing, and leaves TICKS and OVR (40_clock.md R102). -/
theorem State.evRollover_counted (s : State) :
    s.evRollover.ticks = s.ticks ∧ s.evRollover.ovr = s.ovr ∧ s.evRollover.counted = s.counted := by
  obtain ⟨-, e⟩ | ⟨⟨-, hirq⟩, e⟩ := s.evRollover_cases <;> rw [e]
  · exact ⟨rfl, rfl, rfl⟩
  · exact ⟨rfl, rfl, State.counted_serviced (Bool.and_eq_true_iff.mp hirq).2⟩

end

/-- Under a schedule of ticks and services a booted clock counts its rollovers, and OVR is not cleared. -/
theorem run_ticks_and_services {ms : List Move} {s : State} (hs : s.sched = ms) (h : s.Booted)
    (htk : s.ticks.toNat ≤ 9999) (hms : ∀ m ∈ ms, m = .tick ∨ m = .rollover) :
    ∃ t, Host.Core.run Sys2Proof.core ms.length s = .next t ∧
      t.ticks.toNat = (s.ticks.toNat + ms.count .tick) % 10000 ∧
      (t.ovr = false → s.ovr = false ∧
        t.counted = s.counted + BitVec.ofNat 32 ((s.ticks.toNat + ms.count .tick) / 10000)) := by
  induction ms generalizing s with
  | nil =>
    have h0 : s.ticks.toNat / 10000 = 0 := by omega
    exact ⟨s, rfl, (Nat.mod_eq_of_lt (Nat.lt_succ_of_le htk)).symm, fun ho => ⟨ho, by simp [h0]⟩⟩
  | cons m ms ih =>
    obtain ⟨hm, hms'⟩ := List.forall_mem_cons.mp hms
    let u : State := { s with sched := ms }
    obtain rfl | rfl := hm
    · obtain ⟨hb, hus⟩ := State.evTick_booted (s := u) h
      obtain ⟨hut, huo⟩ := State.evTick_counted (s := u) h htk
      obtain ⟨t, hrun, htt, hto⟩ := ih hus hb (by omega) hms'
      refine ⟨t, (run_succ_of_step (step_eq_of_sched hs) _).trans hrun, ?_, fun ho => ?_⟩
      · rw [htt, hut, List.count_cons_self]
        show ((s.ticks.toNat + 1) % 10000 + ms.count .tick) % 10000 = _
        omega
      · obtain ⟨ho, hc⟩ := hto ho
        obtain ⟨ho, hc'⟩ := huo ho
        refine ⟨ho, ?_⟩
        have hsum : (s.ticks.toNat + 1) / 10000 + ((s.ticks.toNat + 1) % 10000 + ms.count .tick) / 10000 =
            (s.ticks.toNat + (ms.count .tick + 1)) / 10000 := by omega
        rw [hc, hc', hut, List.count_cons_self, ← hsum, BitVec.ofNat_add, ← add_assoc]
        rfl
    · obtain ⟨hb, hus⟩ := State.evRollover_booted (s := u) h
      obtain ⟨hut, huo, huc⟩ := State.evRollover_counted u
      obtain ⟨t, hrun, htt, hto⟩ := ih hus hb (by rw [hut]; exact htk) hms'
      refine ⟨t, (run_succ_of_step (step_eq_of_sched hs) _).trans hrun, ?_, fun ho => ?_⟩
      · rw [htt, hut, List.count_cons_of_ne (by decide)]
      · obtain ⟨ho, hc⟩ := hto ho
        rw [hc, hut, huc, List.count_cons_of_ne (by decide)]
        exact ⟨huo.symm.trans ho, rfl⟩

/-- Settles O17, by the count along the schedule. -/
theorem secondsCountRolloversWithoutLoss : Obligations.SecondsCountRolloversWithoutLoss := by
  intro s ms h htk hms
  obtain ⟨t, hrun, ht, hcount⟩ := run_ticks_and_services (s := { s with sched := ms }) rfl h htk hms
  exact ⟨t, hrun, ht, fun ho => (hcount ho).2⟩

end Sys2Proof.Machine
end

section
/-! LEMMAS AND PROOFS. Rollovers against their service: a service that comes a whole second late, and a rollover and its
service inside an open MC.GET_TIME window (10_state.md R37; 40_clock.md R108; 70_reset_and_hazards.md R241, R242). -/

namespace Sys2Proof.Machine

section
variable {s : State} {ms : List Move}

/-- The step of an EV.TICK that rolls over. -/
theorem step_tick_of_atRollover (hs : s.sched = .tick :: ms) (he : s.tickEnabled) (ht : s.ticks = 9999) :
    step s = .next { s with ticks := 0, ovr := s.ovr || s.rpend, rpend := true, sched := ms } :=
  (step_eq_of_sched hs).trans (congrArg _ (State.evTick_of_atRollover (s := { s with sched := ms }) he ht))

/-- The step of an EV.TICK that does not. -/
theorem step_tick_of_not_atRollover (hs : s.sched = .tick :: ms) (he : s.tickEnabled) (ht : s.ticks ≠ 9999) :
    step s = .next { s with ticks := s.ticks + 1, sched := ms } :=
  (step_eq_of_sched hs).trans (congrArg _ (State.evTick_of_not_atRollover (s := { s with sched := ms }) he ht))

/-- The step of an EV.ROLLOVER that services. -/
theorem step_rollover (hs : s.sched = .rollover :: ms) (he : s.rolloverEnabled) :
    step s = .next { s with seconds := s.seconds + 1, rpend := false, sched := ms } :=
  (step_eq_of_sched hs).trans (congrArg _ (State.evRollover_of_enabled (s := { s with sched := ms }) he))

/-- Where TICKS is below 9999 as a number, the next tick is no rollover. -/
theorem ticks_ne_of_lt {k : Word} (h : k.toNat < 9999) : k ≠ 9999 :=
  fun hk => absurd h (by rw [hk]; decide)

/-- Ticks that do not reach a rollover only advance TICKS. -/
theorem run_ticks {n : Nat} {k : Word} (hs : s.sched = List.replicate n .tick ++ ms) (he : s.tickEnabled)
    (hk : k.toNat = s.ticks.toNat + n) (hle : k.toNat ≤ 9999) :
    Host.Core.run Sys2Proof.core n s = .next { s with ticks := k, sched := ms } := by
  induction n generalizing s with
  | zero =>
    obtain rfl : k = s.ticks := BitVec.eq_of_toNat_eq hk
    obtain rfl : s.sched = ms := hs
    rfl
  | succ n ih =>
    have hne := ticks_ne_of_lt (k := s.ticks) (by omega)
    have hsucc := (succ_ticks_toNat (by omega) hne).1
    refine (run_succ_of_step (step_tick_of_not_atRollover hs he hne) n).trans ?_
    exact ih rfl he (show k.toNat = (s.ticks + 1).toNat + n by omega)

end

/-- Settles O18: `9999 - k` ticks to the last tick, the rollover that is lost, `k` ticks back, and the service. -/
theorem delayedServiceLosesOneSecond : Obligations.DelayedServiceLosesOneSecond := by
  intro s ms h hle hp
  obtain ⟨hcfg, hten, hien, hf, -⟩ := h
  obtain ⟨k, hk⟩ : ∃ k, k = s.ticks.toNat := ⟨_, rfl⟩
  have hsched : List.replicate 10000 .tick ++ .rollover :: ms =
      List.replicate (9999 - k) .tick ++ (.tick :: (List.replicate k .tick ++ .rollover :: ms)) := by
    rw [show 10000 = (9999 - k) + (k + 1) by omega, List.replicate_add, List.replicate_succ]
    simp
  have hsteps : 10001 = (9999 - k) + ((k + 1) + 1) := by omega
  have he : s.tickEnabled := ⟨hf, hten, hcfg⟩
  have hlast : (9999 : Word).toNat = s.ticks.toNat + (9999 - k) := by
    show 9999 = _
    omega
  rw [hsched, hsteps]
  refine (run_add (by exact run_ticks rfl he hlast (by decide)) _).trans ?_
  refine (run_succ_of_step (by exact step_tick_of_atRollover rfl he rfl) _).trans ?_
  refine (run_add (by exact run_ticks (k := s.ticks) rfl he (by simp [hk]) hle) _).trans ?_
  refine (run_succ_of_step (by exact step_rollover rfl ⟨hf, by simp [State.irq, hien]⟩) _).trans ?_
  rw [hp, Bool.or_true]
  rfl

/-! ### The straddle -/

/-- The seconds a stretch of moves with SECONDS at `sec` samples, if it samples them. -/
def sampledSeconds (sec : Word) (w : List Move) : Option Word := if .sampleS ∈ w then some sec else none

/-- The ticks a stretch of moves from TICKS at `k` samples, if it samples them. -/
def sampledTicks : Nat → List Move → Option Nat
  | _, [] => none
  | k, m :: w => if m = .sampleT then some k else sampledTicks (k + [m].count .tick) w

/-- The ticks of a stretch are those of its first move and of the others. -/
theorem count_tick_cons (m : Move) (w : List Move) : (m :: w).count .tick = [m].count .tick + w.count .tick := by
  rw [← List.singleton_append, List.count_append]

/-- The first of two stretches that samples the seconds fills the slot. -/
theorem sampledSeconds_append (sec : Word) (v w : List Move) :
    sampledSeconds sec (v ++ w) = (sampledSeconds sec v).or (sampledSeconds sec w) := by
  by_cases hv : .sampleS ∈ v <;> simp [sampledSeconds, hv]

/-- The first of two stretches that samples the ticks fills the slot; the second begins after the first one's ticks. -/
theorem sampledTicks_append (k : Nat) (v w : List Move) :
    sampledTicks k (v ++ w) = (sampledTicks k v).or (sampledTicks (k + v.count .tick) w) := by
  induction v generalizing k with
  | nil => rfl
  | cons m v ih =>
    have hcount : k + (m :: v).count .tick = k + [m].count .tick + v.count .tick := by
      rw [count_tick_cons, Nat.add_assoc]
    by_cases hm : m = .sampleT <;> simp only [List.cons_append, sampledTicks, hm, if_true, if_false, ih, hcount]
    rfl

/-- The ticks sampled are those at the start and those before the sample. -/
theorem sampledTicks_eq (k : Nat) (w : List Move) :
    sampledTicks k w = if .sampleT ∈ w then some (k + (w.takeWhile (· ≠ .sampleT)).count .tick) else none := by
  induction w generalizing k with
  | nil => rfl
  | cons m w ih =>
    by_cases hm : m = .sampleT
    · simp [sampledTicks, hm]
    · have hmem : .sampleT ∈ m :: w ↔ .sampleT ∈ w := by simp [Ne.symm hm]
      simp only [hmem]
      rw [sampledTicks, if_neg hm, ih, List.takeWhile_cons, if_pos (decide_eq_true hm),
        count_tick_cons m (w.takeWhile _), Nat.add_assoc]

/-- What a stretch of moves leaves of a state with `a` and `b` in its open window, if TICKS does not roll over in it and
no rollover is serviced: it advances TICKS and fills the slots that were empty. -/
def AfterStretch (s : State) (a b : Option Word) (w ms : List Move) (t : State) : Prop :=
  ∃ (b' : Option Word) (k : Word),
    t = { s with ticks := k, gt := .opened (a.or (sampledSeconds s.seconds w)) b', sched := ms } ∧
    b'.map BitVec.toNat = (b.map BitVec.toNat).or (sampledTicks s.ticks.toNat w) ∧
    k.toNat = s.ticks.toNat + w.count .tick

section
variable {s : State} {ms : List Move} {a b : Option Word}

/-- A move that does nothing samples nothing into the slots. -/
theorem AfterStretch.of_idle {m : Move} (hg : s.gt = .opened a b) (hS : a.or (sampledSeconds s.seconds [m]) = a)
    (hT : (b.map BitVec.toNat).or (sampledTicks s.ticks.toNat [m]) = b.map BitVec.toNat) (hm : m ≠ .tick) :
    AfterStretch s a b [m] ms { s with sched := ms } := by
  refine ⟨b, s.ticks, ?_, hT.symm, ?_⟩
  · rw [hS, ← hg]
  · rw [List.count_singleton, beq_false_of_ne hm]
    rfl

/-- One move inside an open window that is neither its completion nor a reset, and no rollover or service. -/
theorem step_in_window {m : Move} (hs : s.sched = m :: ms) (he : s.tickEnabled) (hg : s.gt = .opened a b)
    (htick : m = .tick → s.ticks.toNat < 9999) (hserve : s.rpend = false ∨ m ≠ .rollover)
    (hm : m ≠ .complete ∧ m ≠ .reset) : ∃ t, step s = .next t ∧ AfterStretch s a b [m] ms t := by
  let u : State := { s with sched := ms }
  have hstep : step s = takeMove m u := step_eq_of_sched hs
  cases m with
  | issue =>
    have hopen : s.gt ≠ .closed := by simp [hg]
    exact ⟨u, hstep.trans (issueCommand_eq_self (s := u) (.inr (.inl hopen))),
      .of_idle hg (by simp [sampledSeconds]) (by simp [sampledTicks]) (by decide)⟩
  | sampleS =>
    cases a with
    | none => exact ⟨_, step_sampleS hs he.1 hg, b, s.ticks, rfl, by simp [sampledTicks], rfl⟩
    | some x =>
      have hfull : ∀ y, s.gt ≠ .opened none y := by simp [hg]
      exact ⟨u, hstep.trans (congrArg _ (State.sampleSeconds_eq_self (s := u) (.inr hfull))),
        .of_idle hg rfl (by simp [sampledTicks]) (by decide)⟩
  | sampleT =>
    cases b with
    | none => exact ⟨_, step_sampleT hs he.1 hg, some s.ticks, s.ticks, by simp [sampledSeconds], rfl, rfl⟩
    | some y =>
      have hfull : ∀ x, s.gt ≠ .opened x none := by simp [hg]
      exact ⟨u, hstep.trans (congrArg _ (State.sampleTicks_eq_self (s := u) (.inr hfull))),
        .of_idle hg (by simp [sampledSeconds]) rfl (by decide)⟩
  | tick =>
    have hne := ticks_ne_of_lt (htick rfl)
    exact ⟨_, step_tick_of_not_atRollover hs he hne, b, s.ticks + 1, by simp [sampledSeconds, hg],
      by simp [sampledTicks], (succ_ticks_toNat (Nat.le_of_lt (htick rfl)) hne).1⟩
  | rollover =>
    have hidle : ¬ u.rolloverEnabled := fun ⟨_, hirq⟩ => by
      have hp : s.rpend = true := (Bool.and_eq_true_iff.mp hirq).2
      simp [hp] at hserve
    exact ⟨u, hstep.trans (congrArg _ (State.evRollover_of_not_enabled hidle)),
      .of_idle hg (by simp [sampledSeconds]) (by simp [sampledTicks]) (by decide)⟩
  | complete => exact absurd rfl hm.1
  | reset => exact absurd rfl hm.2

/-- A stretch of such moves. -/
theorem run_in_window {w : List Move} (hs : s.sched = w ++ ms) (he : s.tickEnabled) (hg : s.gt = .opened a b)
    (hk : s.ticks.toNat + w.count .tick ≤ 9999) (hserve : s.rpend = false ∨ .rollover ∉ w)
    (hw : ∀ m ∈ w, m ≠ .complete ∧ m ≠ .reset) :
    ∃ t, Host.Core.run Sys2Proof.core w.length s = .next t ∧ AfterStretch s a b w ms t := by
  induction w generalizing s a b with
  | nil =>
    obtain rfl : s.sched = ms := hs
    exact ⟨s, rfl, b, s.ticks, by simp [sampledSeconds, ← hg], by simp [sampledTicks], rfl⟩
  | cons m w ih =>
    obtain ⟨hm, hw⟩ := List.forall_mem_cons.mp hw
    have hcount := count_tick_cons m w
    obtain ⟨t, hstep, b1, k1, rfl, hb1, hk1⟩ := step_in_window hs he hg (by rintro rfl; simp at hk; omega)
      (hserve.imp_right fun h e => h (e ▸ List.mem_cons_self)) hm
    let t : State := { s with ticks := k1, gt := .opened (a.or (sampledSeconds s.seconds [m])) b1, sched := w ++ ms }
    obtain ⟨u, hrun, b2, k2, hu, hb2, hk2⟩ := ih (s := t) rfl he rfl (show k1.toNat + w.count .tick ≤ 9999 by omega)
      (hserve.imp_right fun h hm => h (List.mem_cons_of_mem _ hm)) hw
    have hk2 : k2.toNat = k1.toNat + w.count .tick := hk2
    have hb2 : b2.map BitVec.toNat = (b1.map BitVec.toNat).or (sampledTicks k1.toNat w) := hb2
    refine ⟨u, (run_succ_of_step hstep _).trans hrun, b2, k2, ?_, ?_, by omega⟩
    · rw [← List.singleton_append, sampledSeconds_append, ← Option.or_assoc]
      exact hu
    · rw [hb2, hb1, hk1, Option.or_assoc, ← sampledTicks_append _ [m] w]
      rfl

/-- A run through a stretch of such moves goes on from what the stretch leaves. -/
theorem run_through_window {w : List Move} {n : Nat} {r : Result} (hs : s.sched = w ++ ms) (he : s.tickEnabled)
    (hg : s.gt = .opened a b) (hk : s.ticks.toNat + w.count .tick ≤ 9999) (hserve : s.rpend = false ∨ .rollover ∉ w)
    (hw : ∀ m ∈ w, m ≠ .complete ∧ m ≠ .reset)
    (hr : ∀ t, AfterStretch s a b w ms t → Host.Core.run Sys2Proof.core n t = r) :
    Host.Core.run Sys2Proof.core (w.length + n) s = r := by
  obtain ⟨t, hrun, ht⟩ := run_in_window hs he hg hk hserve hw
  exact (run_add hrun n).trans (hr t ht)

end

/-- The straddle: `w1` up to the rollover, `w2` up to its service, `w3` behind it. The read returns what the three
stretches sample, and SECONDS ends one higher (40_clock.md R108). -/
theorem run_straddle {s : State} {cs : List Command} {w1 w2 w3 ms : List Move} (hb : s.Booted) (hq : s.Quiet)
    (h1 : s.ticks.toNat + w1.count .tick = 9999) (h23 : w2.count .tick + w3.count .tick ≤ 9999) (hw2 : .rollover ∉ w2)
    (hw : ∀ m ∈ w1 ++ .tick :: (w2 ++ .rollover :: w3), m ≠ .complete ∧ m ≠ .reset) {a b tk : Word}
    (hS : (sampledSeconds s.seconds (w1 ++ w2)).or (sampledSeconds (s.seconds + 1) w3) = some a)
    (hT : (sampledTicks s.ticks.toNat w1).or (sampledTicks 0 (w2 ++ .rollover :: w3)) = some b.toNat)
    (htk : tk.toNat = w2.count .tick + w3.count .tick) :
    Host.Core.run Sys2Proof.core ((w1 ++ .tick :: (w2 ++ .rollover :: w3)).length + 2)
        { s with
          program := ⟨2, []⟩ :: cs
          sched := .issue :: ((w1 ++ .tick :: (w2 ++ .rollover :: w3)) ++ .complete :: ms) } =
      .next { s with
        seconds := s.seconds + 1, ticks := tk, program := cs, sched := ms,
        results := s.results ++ [.word a, .word (b * 100)] } := by
  obtain ⟨hcfg, hten, hien, hf, hg⟩ := hb
  have he : s.tickEnabled := ⟨hf, hten, hcfg⟩
  simp only [List.forall_mem_append, List.forall_mem_cons] at hw
  obtain ⟨hm1, -, hm2, -, hm3⟩ := hw
  have hlength : (w1 ++ .tick :: (w2 ++ .rollover :: w3)).length + 2 =
      (w1.length + ((w2.length + ((w3.length + 1) + 1)) + 1)) + 1 := by
    simp only [List.length_append, List.length_cons]
    omega
  have hsched : (w1 ++ .tick :: (w2 ++ .rollover :: w3)) ++ .complete :: ms =
      w1 ++ .tick :: (w2 ++ .rollover :: (w3 ++ .complete :: ms)) := by simp
  rw [hlength, hsched]
  refine (run_succ_of_step (by exact step_getTime rfl rfl ⟨hf, hg⟩ hcfg) _).trans ?_
  refine run_through_window rfl he rfl (Nat.le_of_eq h1) (.inl hq) hm1 ?_
  rintro t1 ⟨b1, k1, ht1, hb1, hk1⟩
  obtain rfl : k1 = 9999 := BitVec.eq_of_toNat_eq (hk1.trans h1)
  obtain rfl : t1 = { s with
    ticks := 9999, gt := .opened (none.or (sampledSeconds s.seconds w1)) b1, program := cs,
    sched := .tick :: (w2 ++ .rollover :: (w3 ++ .complete :: ms)) } := ht1
  refine (run_succ_of_step (by exact step_tick_of_atRollover rfl he rfl) _).trans ?_
  refine run_through_window rfl he rfl (show 0 + w2.count .tick ≤ 9999 by omega) (.inr hw2) hm2 ?_
  rintro t2 ⟨b2, k2, ht2, hb2, hk2⟩
  replace hk2 : k2.toNat = w2.count .tick := hk2.trans (Nat.zero_add _)
  replace hb2 : b2.map BitVec.toNat = (b1.map BitVec.toNat).or (sampledTicks 0 w2) := hb2
  obtain rfl : t2 = { s with
    ticks := k2, ovr := s.ovr || s.rpend, rpend := true,
    gt := .opened ((none.or (sampledSeconds s.seconds w1)).or (sampledSeconds s.seconds w2)) b2, program := cs,
    sched := .rollover :: (w3 ++ .complete :: ms) } := ht2
  refine (run_succ_of_step (by exact step_rollover rfl ⟨hf, by simp [State.irq, hien]⟩) _).trans ?_
  refine run_through_window rfl he rfl (show k2.toNat + w3.count .tick ≤ 9999 by omega) (.inl rfl) hm3 ?_
  rintro t3 ⟨b3, k3, ht3, hb3, hk3⟩
  obtain rfl : t3 = { s with
    seconds := s.seconds + 1, ticks := k3, ovr := s.ovr || s.rpend, rpend := false,
    gt := .opened (((none.or (sampledSeconds s.seconds w1)).or (sampledSeconds s.seconds w2)).or
      (sampledSeconds (s.seconds + 1) w3)) b3,
    program := cs, sched := .complete :: ms } := ht3
  replace hk3 : k3.toNat = k2.toNat + w3.count .tick := hk3
  replace hb3 : b3.map BitVec.toNat = (b2.map BitVec.toNat).or (sampledTicks k2.toNat w3) := hb3
  obtain rfl : tk = k3 := BitVec.eq_of_toNat_eq (by omega)
  have hserved : sampledTicks k2.toNat w3 = sampledTicks (0 + w2.count .tick) (.rollover :: w3) := by
    simp [sampledTicks, hk2]
  have hslot : b3 = some b := by
    refine Option.map_injective (fun _ _ => BitVec.eq_of_toNat_eq) (hb3.trans (Eq.trans ?_ hT))
    rw [hb2, hb1, hserved, Option.or_assoc, ← sampledTicks_append]
    rfl
  rw [sampledSeconds_append] at hS
  rw [hslot]
  refine (run_succ_of_step (by exact step_complete rfl hf (congrArg (Window.opened · _) hS)) 0).trans ?_
  have hq : s.rpend = false := hq
  rw [hg, hq, Bool.or_false]
  rfl

/-- What the seconds slot holds behind a window with the service in it. -/
theorem sampledSeconds_straddle (sec : Word) {w1 w2 w3 : List Move}
    (hS : .sampleS ∈ w1 ++ .tick :: (w2 ++ .rollover :: w3)) :
    (sampledSeconds sec (w1 ++ w2)).or (sampledSeconds (sec + 1) w3) =
      some (if .sampleS ∈ w1 ∨ .sampleS ∈ w2 then sec else sec + 1) := by
  simp only [sampledSeconds, List.mem_append]
  by_cases h : .sampleS ∈ w1 ∨ .sampleS ∈ w2
  · rw [if_pos h, if_pos h, Option.some_or]
  · have h3 : .sampleS ∈ w3 := by simpa [not_or.mp h] using hS
    rw [if_neg h, if_neg h, if_pos h3, Option.none_or]

/-- What the ticks slot holds behind a window with the rollover in it. -/
theorem sampledTicks_straddle (k : Nat) {w1 w : List Move} (hT : .sampleT ∈ w1 ++ .tick :: w) :
    (sampledTicks k w1).or (sampledTicks 0 w) =
      some (if .sampleT ∈ w1 then k + (w1.takeWhile (· ≠ .sampleT)).count .tick
        else (w.takeWhile (· ≠ .sampleT)).count .tick) := by
  rw [sampledTicks_eq, sampledTicks_eq]
  by_cases h : .sampleT ∈ w1
  · rw [if_pos h, if_pos h, Option.some_or]
  · have hw : .sampleT ∈ w := by simpa [h] using hT
    rw [if_neg h, if_neg h, if_pos hw, Option.none_or, Nat.zero_add]

/-- The ticks before a sample are no more than all of them. -/
theorem count_tick_takeWhile_le (w : List Move) : (w.takeWhile (· ≠ .sampleT)).count .tick ≤ w.count .tick :=
  (List.takeWhile_sublist _).count_le _

/-- Settles O16: the first four schedules are the general window at `k = 9999`; in the last one the service comes only
behind the window. -/
theorem straddlingReadsMissByOneSecond : Obligations.StraddlingReadsMissByOneSecond := by
  constructor
  · intro s cs ms hb hq ht start served
    have hk : s.ticks.toNat = 9999 := by rw [ht]; rfl
    obtain ⟨hcfg, hten, hien, hf, hg⟩ := id hb
    refine ⟨?_, ?_, ?_, ?_, ?_⟩
    · exact run_straddle (w1 := [.sampleS, .sampleT]) (w2 := []) (w3 := []) (b := 9999) (tk := 0) hb hq hk (by decide)
        (by decide) (by decide) rfl (by rw [hk]; rfl) rfl
    · exact run_straddle (w1 := [.sampleS]) (w2 := []) (w3 := [.sampleT]) (b := 0) (tk := 0) hb hq hk (by decide)
        (by decide) (by decide) rfl rfl rfl
    · exact run_straddle (w1 := [.sampleT]) (w2 := []) (w3 := [.sampleS]) (b := 9999) (tk := 0) hb hq hk (by decide)
        (by decide) (by decide) rfl (by rw [hk]; rfl) rfl
    · exact run_straddle (w1 := []) (w2 := []) (w3 := [.sampleS, .sampleT]) (b := 0) (tk := 0) hb hq hk (by decide)
        (by decide) (by decide) rfl rfl rfl
    · refine (run_succ_of_step (by exact step_getTime rfl rfl ⟨hf, hg⟩ hcfg) 5).trans ?_
      refine (run_succ_of_step (by exact step_tick_of_atRollover rfl ⟨hf, hten, hcfg⟩ ht) 4).trans ?_
      refine (run_add (by exact run_sampleS_sampleT_complete rfl hf rfl) 1).trans ?_
      refine (run_succ_of_step (by exact step_rollover rfl ⟨hf, Bool.and_eq_true_iff.mpr ⟨hien, rfl⟩⟩) 0).trans ?_
      have hq : s.rpend = false := hq
      simp only [Host.Core.run, start, served, hq, hg, Bool.or_false]
      rfl
  · intro s cs w1 w2 w3 ms hb hq h1 h23 hw2 window hw hS hT
    let n := if .sampleT ∈ w1 then s.ticks.toNat + (w1.takeWhile (· ≠ .sampleT)).count .tick
      else ((w2 ++ .rollover :: w3).takeWhile (· ≠ .sampleT)).count .tick
    have hn : n ≤ 9999 := by
      have hle1 := count_tick_takeWhile_le w1
      have hle2 := count_tick_takeWhile_le (w2 ++ .rollover :: w3)
      rw [List.count_append, List.count_cons_of_ne (by decide)] at hle2
      by_cases h : .sampleT ∈ w1
      · rw [show n = _ from if_pos h]
        omega
      · rw [show n = _ from if_neg h]
        omega
    have htk : (BitVec.ofNat 32 (w2.count .tick + w3.count .tick)).toNat = w2.count .tick + w3.count .tick :=
      Nat.mod_eq_of_lt (by omega)
    have hb' : (BitVec.ofNat 32 n).toNat = n := Nat.mod_eq_of_lt (by omega)
    refine ⟨_, BitVec.ofNat 32 n * 100, _, run_straddle hb hq h1 h23 hw2 hw (sampledSeconds_straddle s.seconds hS)
      ((sampledTicks_straddle _ hT).trans (congrArg some hb'.symm)) htk, htk, rfl, ?_⟩
    rw [mul_usPerTick_toNat (by omega), hb', Nat.mul_comm]

end Sys2Proof.Machine
end

section
/-! LEMMAS AND PROOFS. Where the run of a launch ends (60_exceptions.md R217; log entry 22). -/

namespace Sys2Proof.Machine

/-- A command's results go behind those returned before. -/
theorem Effect.results_append {i : Instr} {s t : State} (he : Effect i s t) : ∃ rs, t.results = s.results ++ rs := by
  cases he with
  | answered _ rs => exact ⟨rs, rfl⟩
  | faulted => exact ⟨[], by simp⟩
  | applied => exact ⟨_, rfl⟩
  | _ => exact ⟨[], (List.append_nil _).symm⟩

/-- So do a step's. -/
theorem results_append_of_step {s t : State} (h : step s = .next t) : ∃ rs, t.results = s.results ++ rs := by
  cases stepEffect_of_step h with
  | windowOnly _ rs => exact ⟨rs, rfl⟩
  | issued _ _ _ _ he => exact s.nextMove_results ▸ he.results_append
  | _ => exact ⟨[], s.nextMove_results.trans (List.append_nil _).symm⟩

/-- FG has nothing unfinished exactly where its program is empty and no window is open. -/
theorem unfinished_eq_zero_iff (s : State) : s.unfinished = 0 ↔ s.program = [] ∧ s.gt = .closed := by
  unfold State.unfinished
  split <;> simp_all

/-- Where FG has nothing unfinished and yet waits for a completion, which only a cut-off read can bring about, the run
has no end. -/
theorem runEnd_ne_some {k left : Nat} {s e : State} (hu : s.unfinished = 0) (hf : s.fault = 0) (hl : left ≠ 0) :
    runEnd k left s ≠ some e := by
  induction k using Nat.strong_induction_on generalizing s with
  | _ k ih =>
    intro h
    obtain ⟨-, hd⟩ | ⟨-, -, j, t, rfl, hs, hr⟩ := runEnd_cases h
    · exact hd.elim (· hf) hl
    · obtain ⟨hut, hft, hc⟩ := step_of_unfinished_zero hs hu hf
      rw [leftAfter, hc] at hr
      exact ih j (Nat.lt_succ_self j) hut hft hr

/-- Where a run ends: at a fault or with nothing unfinished, at the first such state, and with results behind those at
its start. FG waits for at least as many completions as it has commands unfinished. -/
theorem runEnd_spec {k left : Nat} {s e : State} (hle : s.unfinished ≤ left) (h : runEnd k left s = some e) :
    (e.fault ≠ 0 ∨ e.unfinished = 0) ∧ (∃ rs, e.results = s.results ++ rs) ∧
    ∃ n, n ≤ k ∧ Host.Core.run Sys2Proof.core n s = .next e ∧
      ∀ m, m < n → ∃ u, Host.Core.run Sys2Proof.core m s = .next u ∧ u.fault = 0 ∧ u.unfinished ≠ 0 := by
  induction k using Nat.strong_induction_on generalizing left s with
  | _ k ih =>
    obtain ⟨rfl, hd⟩ | ⟨hf, hl, j, t, rfl, hs, hr⟩ := runEnd_cases h
    · exact ⟨hd.imp_right fun hl => by omega, ⟨[], (List.append_nil _).symm⟩, 0, Nat.zero_le k, rfl,
        fun m hm => absurd hm (Nat.not_lt_zero m)⟩
    · have hu : s.unfinished ≠ 0 := fun hu => runEnd_ne_some hu hf hl h
      have hlet : t.unfinished ≤ leftAfter left s t := by
        have hun := unfinished_of_step hs
        rw [leftAfter]
        by_cases hc : completesCommand s t = true
        · rw [if_pos hc] at hun ⊢
          omega
        · rw [if_neg hc] at hun ⊢
          omega
      obtain ⟨hend, ⟨rs, hrs⟩, n, hn, hrun, hbefore⟩ := ih j (Nat.lt_succ_self j) hlet hr
      obtain ⟨rs', hrs'⟩ := results_append_of_step hs
      refine ⟨hend, ⟨rs' ++ rs, by rw [hrs, hrs', List.append_assoc]⟩, n + 1, Nat.succ_le_succ hn,
        (run_succ_of_step hs n).trans hrun, fun m hm => ?_⟩
      cases m with
      | zero => exact ⟨s, rfl, hf, hu⟩
      | succ m =>
        obtain ⟨u, hru, hu⟩ := hbefore m (Nat.lt_of_succ_lt_succ hm)
        exact ⟨u, (run_succ_of_step hs m).trans hru, hu⟩

/-- A run does end where the machine reaches a fault or nothing is unfinished any more, if no read was cut off. -/
theorem runEnd_of_run {k : Nat} {s t : State} (hrun : Host.Core.run Sys2Proof.core k s = .next t)
    (hcut : ∀ m u, m < k → Host.Core.run Sys2Proof.core m s = .next u → u.nextMove.1 = .reset → u.gt = .closed)
    (hend : t.fault ≠ 0 ∨ t.unfinished = 0) : ∃ u, runEnd k s.unfinished s = some u := by
  induction k generalizing s with
  | zero =>
    obtain rfl := Host.Outcome.next.inj hrun
    exact ⟨s, runEnd_of_ended hend 0⟩
  | succ k ih =>
    obtain ⟨u, hs, hru⟩ := run_succ_eq_next.mp hrun
    by_cases hd : s.fault ≠ 0 ∨ s.unfinished = 0
    · exact ⟨s, runEnd_of_ended hd _⟩
    · rw [runEnd_succ hd hs]
      by_cases hf : u.fault = 0
      · rw [leftAfter_of_step hs (hcut 0 s (Nat.succ_pos k) rfl) hf]
        exact ih hru fun m v hm hv => hcut (m + 1) v (Nat.succ_lt_succ hm) ((run_succ_of_step hs m).trans hv)
      · exact ⟨u, runEnd_of_ended (.inl hf) k⟩

/-- Settles O60: a launch starts with its whole program unfinished. -/
theorem runEndsAtLastCompletionOrFirstFault : Obligations.RunEndsAtLastCompletionOrFirstFault := by
  have hstart (s : State) (h : s.Clean) : s.unfinished = s.program.length := by
    rw [State.unfinished, if_pos h.2, Nat.add_zero]
  refine ⟨fun s t k h hend => ?_, fun s t k h hrun hcut hend => ?_, fun s ms k a b hf hp => ?_⟩
  · obtain ⟨he, ⟨rs, hrs⟩, n, hn, hrun, hbefore⟩ := runEnd_spec (Nat.le_of_eq (hstart s h)) hend
    refine ⟨he.imp_right (unfinished_eq_zero_iff t).mp, ?_, n, hn, hrun, fun m hm => ?_⟩
    · rw [observation, hrs, List.drop_left]
    · obtain ⟨u, hru, hf, hu⟩ := hbefore m hm
      exact ⟨u, hru, hf, not_and_or.mp (mt (unfinished_eq_zero_iff u).mpr hu)⟩
  · have hex := runEnd_of_run hrun hcut (hend.imp_right (unfinished_eq_zero_iff t).mpr)
    rwa [hstart s h] at hex
  · rw [Option.eq_none_iff_forall_ne_some]
    intro e h
    obtain ⟨-, hd⟩ | ⟨-, -, j, t, -, hs, hr⟩ := runEnd_cases h
    · exact hd.elim (· hf) one_ne_zero
    · obtain rfl := Host.Outcome.next.inj hs
      have hu : (State.evReset { s with gt := .opened a b, sched := ms }).unfinished = 0 :=
        (unfinished_eq_zero_iff _).mpr ⟨hp, rfl⟩
      exact runEnd_ne_some hu rfl one_ne_zero hr

end Sys2Proof.Machine
end
